-- ==== Sys2Proof/Word.lean ====
section
/-! DEFINITION. The words and ports of fp_multiplier: the 64-bit FloatValue (30_encoding.md R30), the 4-bit
selector (R40), the input and output ports of the one operation format `OP` (R41), and the derived triple (R32).
Bit 0 of every vector is its least significant bit (00_scope.md R6); wire i of a port carries the bit of weight 2^i
(20_memory.md R21, decision D8; notes/assumptions/20.md). -/

namespace Sys2Proof

/-- A FloatValue: one 64-bit pattern; every one of the 2^64 patterns is legal (R30, R31). -/
abbrev FloatValue := BitVec 64

/-- The operation selector `op[3:0]` (R40, decision D2). -/
abbrev Selector := BitVec 4

/-- The class vector `cls[6:0]` (R41, R67). -/
abbrev ClassVector := BitVec 7

/-- The input ports of format `OP` (R41). A 1-bit port is a `Bool`, 1 being `true`. -/
structure Inputs where
  /-- `op[3:0]`: the selector. -/
  op : Selector
  /-- `a[63:0]`: the first operand. -/
  a : FloatValue
  /-- `b[63:0]`: the other operand. -/
  b : FloatValue
  /-- `s_in`: a sign, `true` for negative. -/
  sIn : Bool
  /-- `e_in[12:0]`: a signed exponent in two's complement. -/
  eIn : BitVec 13
  /-- `m_in[63:0]`: an unsigned mantissa. -/
  mIn : BitVec 64
  /-- `p_in[105:0]`: an unsigned product. -/
  pIn : BitVec 106
deriving DecidableEq, Repr, Inhabited

/-- The output ports of format `OP` (R41). -/
structure Outputs where
  /-- `r[63:0]`: the FloatValue result. -/
  r : FloatValue
  /-- `s_out`: a sign. -/
  sOut : Bool
  /-- `e_out[11:0]`: a signed exponent in two's complement. -/
  eOut : BitVec 12
  /-- `m_out[51:0]`: a mantissa. -/
  mOut : BitVec 52
  /-- `cls[6:0]`: the class vector. -/
  cls : ClassVector
  /-- `hit`: whether NANPROP found a NaN. -/
  hit : Bool
  /-- `flag`: the answer of a comparison. -/
  flag : Bool
deriving DecidableEq, Repr, Inhabited

/-- DecomposedFloat, the derived triple (R32). -/
structure Decomposed where
  /-- `true` = negative. -/
  sign : Bool
  /-- The biased field minus 1023: −1023 … 1024 for every FloatValue. -/
  exponent : Int
  /-- The 52-bit fraction, no implicit bit. -/
  mantissa : BitVec 52
deriving DecidableEq, Repr

/-- What a caller may read after an operation, as the numbers of R45: a port the operation does not drive is `none`
(R41, R42), and so is `r` after a NANPROP that found no NaN (R68). -/
structure Visible where
  r : Option FloatValue := none
  sOut : Option Bool := none
  eOut : Option Int := none
  mOut : Option Nat := none
  cls : Option ClassVector := none
  hit : Option Bool := none
  flag : Option Bool := none
deriving DecidableEq, Repr

end Sys2Proof
end

