-- ==== Sys2Proof/Syntax.lean ====
section
/-! DEFINITION. The operations of fp_multiplier (30_encoding.md R42) and their written form (R45). -/

namespace Sys2Proof

/-- One constructor per row of spec/opcode_table.json (R42). The selector alone chooses the operation (R40) and there
are no immediates (R41), so a constructor carries nothing: operands are whole input ports. -/
inductive Instr
  | mul
  | decompose
  | compose
  | classify
  | nanprop
  | canonnan
  | inf
  | normround
  | negate
  | cmplt
  | cmpgt
  | cmpeq
deriving DecidableEq, Repr

/-- An operation with its operands, as R45 writes it: `MNEMONIC(operands)`. Exponents are mathematical integers and
mantissas and products natural numbers, as decision D3 asks of a Lean model; the port bounds are the precondition of
WellFormed.lean (notes/assumptions/12.md). -/
inductive Call
  | mul (a b : FloatValue)
  | decompose (a : FloatValue)
  | compose (sign : Bool) (exponent : Int) (mantissa : Nat)
  | classify (a : FloatValue)
  | nanprop (a b : FloatValue)
  | canonnan
  | inf (sign : Bool)
  | normround (sign : Bool) (we : Int) (product : Nat)
  | negate (a : FloatValue)
  | cmplt (a b : FloatValue)
  | cmpgt (a b : FloatValue)
  | cmpeq (a b : FloatValue)
deriving DecidableEq, Repr

/-- The operation a call names. -/
def Call.instr : Call → Instr
  | .mul _ _ => .mul
  | .decompose _ => .decompose
  | .compose _ _ _ => .compose
  | .classify _ => .classify
  | .nanprop _ _ => .nanprop
  | .canonnan => .canonnan
  | .inf _ => .inf
  | .normround _ _ _ => .normround
  | .negate _ => .negate
  | .cmplt _ _ => .cmplt
  | .cmpgt _ _ => .cmpgt
  | .cmpeq _ _ => .cmpeq

end Sys2Proof
end

