-- ==== Sys2Proof/WellFormed.lean ====
section
/-! DEFINITION. Which written operations can be presented on the ports: the bounds of 30_encoding.md R41 and decision
D3 on `e_in` (13-bit two's complement), `m_in` (64 bits) and `p_in` (106 bits). Every other operand is a whole port
by its type, and a bare `Instr` has nothing to check: its constructor is its selector. -/

namespace Sys2Proof

/-- The exponent fits `e_in`: −4096 … 4095 (D3). -/
def exponentFits (e : Int) : Bool := decide (-4096 ≤ e) && decide (e ≤ 4095)

/-- The mantissa fits `m_in` (D3). -/
def mantissaFits (m : Nat) : Bool := decide (m < 2 ^ 64)

/-- The product fits `p_in`, which is also the domain of NORMROUND (R80). -/
def productFits (p : Nat) : Bool := decide (p < 2 ^ 106)

/-- A call whose operands all fit their ports. -/
def Call.wellFormed : Call → Bool
  | .mul _ _ => true
  | .decompose _ => true
  | .compose _ e m => exponentFits e && mantissaFits m
  | .classify _ => true
  | .nanprop _ _ => true
  | .canonnan => true
  | .inf _ => true
  | .normround _ we p => exponentFits we && productFits p
  | .negate _ => true
  | .cmplt _ _ => true
  | .cmpgt _ _ => true
  | .cmpeq _ _ => true

end Sys2Proof
end

