-- ==== Sys2Proof/Decode.lean ====
section
/-! DEFINITION. Decoding of the selector (30_encoding.md R40, R42, R43), the encoder written from the same table, and
the same two for a written operation and the input ports (R41, R45). -/

namespace Sys2Proof

/-- Why a selector is rejected. -/
inductive DecodeError
  /-- `0xC` … `0xF` name no operation (R43). -/
  | reservedSelector (op : Selector)
deriving DecidableEq, Repr

/-- The operation a selector names (R42), total on the 16 values; the reserved ones are rejected by name (R43). -/
def decode (op : Selector) : Except DecodeError Instr :=
  match op.toNat with
  | 0x0 => .ok .mul
  | 0x1 => .ok .decompose
  | 0x2 => .ok .compose
  | 0x3 => .ok .classify
  | 0x4 => .ok .nanprop
  | 0x5 => .ok .canonnan
  | 0x6 => .ok .inf
  | 0x7 => .ok .normround
  | 0x8 => .ok .negate
  | 0x9 => .ok .cmplt
  | 0xA => .ok .cmpgt
  | 0xB => .ok .cmpeq
  | _ => .error (.reservedSelector op)

/-- The selector of an operation (the column `encoding` of spec/opcode_table.json). -/
def encode : Instr → Selector
  | .mul => 0b0000
  | .decompose => 0b0001
  | .compose => 0b0010
  | .classify => 0b0011
  | .nanprop => 0b0100
  | .canonnan => 0b0101
  | .inf => 0b0110
  | .normround => 0b0111
  | .negate => 0b1000
  | .cmplt => 0b1001
  | .cmpgt => 0b1010
  | .cmpeq => 0b1011

/-- The selector as a table word: the table's mask is `0xF`, so bits 3:0 of the word are the selector's four wires
and a higher bit of the byte is no wire of the port. DESIGN CHOICE, safe (notes/assumptions/10.md). -/
def selectorOfTableWord (nbits w : Nat) : Selector := BitVec.ofNat 4 (w % 2 ^ nbits)

/-- The operation the decoder reads from a table word of `nbits` bits. -/
def decodeTableWord (nbits w : Nat) : Option Instr :=
  match decode (selectorOfTableWord nbits w) with
  | .ok i => some i
  | .error _ => none

/-- The call that stands on the input ports: `e_in` is sign-extended from 13 bits, every other port is an unsigned
integer (R41), and only the ports the operation's row of R42 names are read. -/
def decodeCall (x : Inputs) : Except DecodeError Call :=
  match decode x.op with
  | .ok .mul => .ok (.mul x.a x.b)
  | .ok .decompose => .ok (.decompose x.a)
  | .ok .compose => .ok (.compose x.sIn x.eIn.toInt x.mIn.toNat)
  | .ok .classify => .ok (.classify x.a)
  | .ok .nanprop => .ok (.nanprop x.a x.b)
  | .ok .canonnan => .ok .canonnan
  | .ok .inf => .ok (.inf x.sIn)
  | .ok .normround => .ok (.normround x.sIn x.eIn.toInt x.pIn.toNat)
  | .ok .negate => .ok (.negate x.a)
  | .ok .cmplt => .ok (.cmplt x.a x.b)
  | .ok .cmpgt => .ok (.cmpgt x.a x.b)
  | .ok .cmpeq => .ok (.cmpeq x.a x.b)
  | .error e => .error e

/-- The input ports with a call presented on them: the selector and the ports its row of R42 names; every other port
keeps what it carried. -/
def encodeCall (c : Call) (x : Inputs) : Inputs :=
  match c with
  | .mul a b => { x with op := encode .mul, a := a, b := b }
  | .decompose a => { x with op := encode .decompose, a := a }
  | .compose s e m =>
    { x with op := encode .compose, sIn := s, eIn := BitVec.ofInt 13 e, mIn := BitVec.ofNat 64 m }
  | .classify a => { x with op := encode .classify, a := a }
  | .nanprop a b => { x with op := encode .nanprop, a := a, b := b }
  | .canonnan => { x with op := encode .canonnan }
  | .inf s => { x with op := encode .inf, sIn := s }
  | .normround s we p =>
    { x with op := encode .normround, sIn := s, eIn := BitVec.ofInt 13 we, pIn := BitVec.ofNat 106 p }
  | .negate a => { x with op := encode .negate, a := a }
  | .cmplt a b => { x with op := encode .cmplt, a := a, b := b }
  | .cmpgt a b => { x with op := encode .cmpgt, a := a, b := b }
  | .cmpeq a b => { x with op := encode .cmpeq, a := a, b := b }

end Sys2Proof
end

