-- ==== Sys2Proof/Machine/Operands.lean ====
section
/-! DEFINITION. How operands are read: the fields of a FloatValue (30_encoding.md R30), its derived triple (R32, 40
R51), the full mantissa (R36, 43 R106), and the numbers on the ports `e_in`, `m_in`, `p_in` and `e_out` (R41). -/

namespace Sys2Proof.Machine

/-- `S`, bit 63 (R30; the placement is the spec's general-knowledge passage G1, notes/assumptions/16.md). -/
def signBit (a : FloatValue) : Bool := a.getLsbD 63

/-- `E = a[62:52]`, the biased exponent field (R30). -/
def expField (a : FloatValue) : BitVec 11 := a.extractLsb' 52 11

/-- `M = a[51:0]`, the mantissa field (R30). -/
def mantField (a : FloatValue) : BitVec 52 := a.extractLsb' 0 52

/-- The quiet bit, pattern bit 51 (R34). -/
def quietBit (a : FloatValue) : Bool := a.getLsbD 51

/-- `a[63]`, `a[62:52] − 1023`, `a[51:0]` (R32, R51). -/
def decomposed (a : FloatValue) : Decomposed :=
  { sign := signBit a, exponent := (expField a).toNat - 1023, mantissa := mantField a }

/-- The pure helper of R106: (full mantissa, exponent adjustment) of a finite operand. -/
def fullMantissa (e : Int) (m : BitVec 52) : Nat × Int :=
  if e = -1023 then (m.toNat, 1) else (m.toNat ||| 2 ^ 52, 0)

/-- The exponent on `e_in`: sign-extended from 13 bits (R41). -/
def exponentIn (x : Inputs) : Int := x.eIn.toInt

/-- The mantissa on `m_in`, unsigned (R41). -/
def mantissaIn (x : Inputs) : Nat := x.mIn.toNat

/-- The product on `p_in`, unsigned (R41). -/
def productIn (x : Inputs) : Nat := x.pIn.toNat

/-- An exponent as `e_out` carries it: 12-bit two's complement (R41, R51). -/
def exponentOut (e : Int) : BitVec 12 := BitVec.ofInt 12 e

end Sys2Proof.Machine
end

