-- ==== Sys2Proof/Machine/Flags.lean ====
section
/-! DEFINITION. The Boolean results: the class predicates (41_special_values.md R60 to R66), the class vector (R67)
and the raw-pattern comparisons (40_bit_encoding.md R55 to R57). The block has no status flag: these are ordinary
outputs (10_state.md R13). -/

namespace Sys2Proof.Machine

/-- R60: `(E = 0) ∧ (M = 0)`. -/
def isZero (a : FloatValue) : Bool := expField a == 0 && mantField a == 0

/-- R61: `(E = 0) ∧ (M ≠ 0)`. -/
def isSubnormal (a : FloatValue) : Bool := expField a == 0 && mantField a != 0

/-- R62: `1 ≤ E ≤ 2046`. -/
def isNormal (a : FloatValue) : Bool := decide (1 ≤ (expField a).toNat) && decide ((expField a).toNat ≤ 2046)

/-- R63: `(E = 2047) ∧ (M = 0)`. -/
def isInfinity (a : FloatValue) : Bool := expField a == 2047 && mantField a == 0

/-- R64: `(E = 2047) ∧ (M ≠ 0)`. -/
def isNaN (a : FloatValue) : Bool := expField a == 2047 && mantField a != 0

/-- R65: a NaN with bit 51 set. -/
def isQuietNaN (a : FloatValue) : Bool := isNaN a && quietBit a

/-- R66: a NaN with bit 51 clear. -/
def isSignalingNaN (a : FloatValue) : Bool := isNaN a && !quietBit a

/-- R67: `cls[0]` … `cls[6]`, written with bit 6 first (the gathering is decision D14, notes/assumptions/21.md). -/
def classVector (a : FloatValue) : ClassVector :=
  BitVec.ofBool (isSignalingNaN a) ++ BitVec.ofBool (isQuietNaN a) ++ BitVec.ofBool (isNaN a) ++
    BitVec.ofBool (isInfinity a) ++ BitVec.ofBool (isNormal a) ++ BitVec.ofBool (isSubnormal a) ++
    BitVec.ofBool (isZero a)

/-- R55: `a < b` as 64-bit unsigned integers. -/
def rawLess (a b : FloatValue) : Bool := decide (a.toNat < b.toNat)

/-- R56: `a > b` as 64-bit unsigned integers. -/
def rawGreater (a b : FloatValue) : Bool := decide (a.toNat > b.toNat)

/-- R57: all 64 bits equal. -/
def rawEqual (a b : FloatValue) : Bool := decide (a.toNat = b.toNat)

end Sys2Proof.Machine
end

