-- ==== Sys2Proof/Config.lean ====
section
/-! DEFINITION. What an implementation fixes (00_scope.md R5, 93_implementation_defined.md P1 to P3) and the free
values of output ports that an operation does not drive (30_encoding.md R41, 93 U2, U3). -/

namespace Sys2Proof.Config

/-- `ROUND_CARRY` (R5, R86, decision D5): what the exponent does when rounding carries out of the kept field. Both
values are fully defined; the spec leaves the choice OPEN. -/
inductive RoundCarry
  /-- The carry increments the working exponent (the spec's default). -/
  | propagate
  /-- Nothing is done; the composer's mask discards the carry. -/
  | drop
deriving DecidableEq, Repr

/-- `CANONICAL_NAN` (R5, R70, decision D4), constrained by the spec to be a quiet NaN. A quiet NaN is exactly
{sign, 0x7FF, 1, 51 payload bits} (R65), so the constraint holds by construction: the two free parts are kept and the
pattern is formed in Machine/Ops.lean. -/
structure CanonicalNaN where
  sign : Bool
  payload : BitVec 51
deriving DecidableEq, Repr

/-- The parameters a model takes (R5). `W_PROD` is absent: R117 says a model takes 106 (notes/assumptions/8.md). -/
structure Params where
  canonicalNaN : CanonicalNaN
  roundCarry : RoundCarry
deriving DecidableEq, Repr

/-- The defaults the spec gives: `CANONICAL_NAN = 0x7FF8000000000000` (D4) and `ROUND_CARRY = propagate` (D5).
DESIGN CHOICE of the spec; unsafe for a claim that rests on them (notes/assumptions/6.md, 7.md). -/
def defaults : Params :=
  { canonicalNaN := { sign := false, payload := 0 }, roundCarry := .propagate }

/-- The values of the output ports that an evaluation does not drive (R41: unspecified; U2, U3: any value). No body:
nothing can be proved of a value. Applied to the count of evaluations and to the whole input tuple, so that neither
two evaluations nor two input tuples are tied to one value. Safe (notes/assumptions/4.md). -/
opaque freeOutputs : Nat → Inputs → Outputs

end Sys2Proof.Config
end

