-- ==== Sys2Proof/Machine/State.lean ====
section
/-! DEFINITION. The state of the model. The block itself has none (10_state.md R10 to R17): what stands here is the
image of its ports (30_encoding.md R41), the parameters it was built with (00_scope.md R5), and the model's own count
of evaluations, which indexes free values (notes/assumptions/1.md). -/

namespace Sys2Proof.Machine

/-- Reasons a step can fault: none exist. "No error type exists because every core operation is total over its full
input domain" (60_exceptions.md R130: the step has no fault outcome; notes/assumptions/23.md). -/
inductive Fault
deriving DecidableEq, Repr

/-- Reasons a step can be refused. -/
inductive Refusal
  /-- Raised by no arm of this model: every operation has its meaning. Safe (the model would stop where the hardware
  goes on). -/
  | notModelled (mnemonic : String)
  /-- Raised by `step` when `op` is `0xC` … `0xF`: a model refuses it, it names no operation and there is no trap
  (30_encoding.md R43, decision D9, 93 U1). Safe: the hardware drives unspecified outputs and nothing is claimed. -/
  | reservedSelector (op : Selector)
deriving DecidableEq, Repr

/-- The ports and parameters of the block. -/
structure State where
  /-- The parameters fixed when the block is built (R5, R14): no operation writes them. -/
  params : Config.Params
  /-- The input ports, as the caller drives them (R41): no operation writes them. -/
  inp : Inputs
  /-- The output ports (R41): the function of the input ports, which every change of the inputs and every step
  re-evaluates (R19, `State.settle`). -/
  out : Outputs
  /-- The MODEL's own count of evaluations; it indexes the free values of undriven outputs. -/
  draws : Nat
deriving DecidableEq, Repr

/-- The machine right after reset. The spec gives no reset value, its list of state elements being empty (10_state.md
R19); the parameters stand at the spec's defaults (D4, D5), every port at zero and the count at zero: DESIGN CHOICE,
unsafe (notes/assumptions/2.md, 3.md, 5.md, 6.md, 7.md). -/
def State.reset : State :=
  { params := Config.defaults
    inp := { op := 0, a := 0, b := 0, sIn := false, eIn := 0, mIn := 0, pIn := 0 }
    out := { r := 0, sOut := false, eOut := 0, mOut := 0, cls := 0, hit := false, flag := false }
    draws := 0 }

end Sys2Proof.Machine
end

