-- ==== Sys2Proof/Machine/Ops.lean ====
section
/-! DEFINITION. The shared operations, each a pure function of its operands and the parameters (00_scope.md R8): the
composer (40_bit_encoding.md R52), the special-value constructors and the NaN policy (41_special_values.md R68 to
R71), the normalizer and rounder (42_normalizer_rounder.md R80 to R87), the multiplier (43_fp_multiplier.md R100 to
R109), and how an operation drives the output ports (30_encoding.md R41). Integers are unbounded (R6). -/

namespace Sys2Proof.Machine

open Config (RoundCarry Params)

/-! ### Composer -/

/-- R52: `{sign, (exponent + 1023) mod 2^11, mantissa mod 2^52}`, no range validation. The remainder is Euclidean, also
for a negative re-biased exponent (decision D7, notes/assumptions/13.md). -/
def composed (sign : Bool) (exponent : Int) (mantissa : Nat) : FloatValue :=
  BitVec.ofBool sign ++ BitVec.ofInt 11 (exponent + 1023) ++ BitVec.ofNat 52 mantissa

/-- The zero of a sign, as the rules write it: `COMPOSE(sign, −1023, 0)` (R81, R84, R105). -/
def signedZero (sign : Bool) : FloatValue := composed sign (-1023) 0

/-- R54: bit 63 flipped. -/
def negated (a : FloatValue) : FloatValue := a ^^^ BitVec.twoPow 64 63

/-! ### Special values -/

/-- R68: the quiet bit (bit 51) forced set, all other bits kept. -/
def quieted (c : FloatValue) : FloatValue := c ||| BitVec.twoPow 64 51

/-- R68: `none` for `hit = 0`. -/
def nanPropagated (a b : FloatValue) : Option FloatValue :=
  if !isNaN a && !isNaN b then none
  else if isSignalingNaN b && !isSignalingNaN a then some (quieted b)
  else if isNaN a then some (quieted a)
  else some (quieted b)

/-- R70: the pattern `CANONICAL_NAN`, from the parameter's sign and payload. -/
def canonicalNaN (p : Params) : FloatValue :=
  BitVec.ofBool p.canonicalNaN.sign ++ (0x7FF : BitVec 11) ++ (1 : BitVec 1) ++ p.canonicalNaN.payload

/-- R71: `{sign, 0x7FF, 52 zero bits}`. -/
def infinityOf (sign : Bool) : FloatValue := BitVec.ofBool sign ++ (0x7FF : BitVec 11) ++ (0 : BitVec 52)

/-! ### Normalizer and rounder -/

/-- `clz_N(v)` of R7 for `v < 2^N`: N − (position of the highest set bit + 1), and N for 0. -/
def clz (n v : Nat) : Nat := if v = 0 then n else n - (Nat.log2 v + 1)

/-- The amount branch 2 of R82 shifts by, in a product register of `w` bits: `clz_w(P) − (w − 105)`. The model takes
`w = 106` (R117, notes/assumptions/8.md), where it is `clz_106(P) − 1`. -/
def leftAmount (w p : Nat) : Nat := clz w p - (w - 105)

/-- What R82 leaves: the working exponent, the deferred shift `pre`, and the normalised product `Pn`. -/
structure Normalised where
  we : Int
  pre : Nat
  pn : Nat
deriving DecidableEq, Repr

/-- R82 in a product register of `w` bits: the leading bit of `Pn` ends at 104 + `pre`; branch 1's one-bit shift is
deferred, so no product bit is lost (conflicts C1, C3, C5; notes/assumptions/14.md). -/
def normalisedAt (w : Nat) (we : Int) (p : Nat) : Normalised :=
  if p.testBit 105 then { we := we + 1, pre := 1, pn := p }
  else { we := we - leftAmount w p, pre := 0, pn := p <<< leftAmount w p }

/-- R82 with the register of 106 bits (R117). -/
def normalised (we : Int) (p : Nat) : Normalised := normalisedAt 106 we p

/-- What R84 leaves: the rounding shift and the clamped working exponent. -/
structure Rounding where
  shift : Nat
  we : Int
deriving DecidableEq, Repr

/-- R84: base shift 52 + `pre`, the subnormal range's extra shift with the exponent clamped to −1023, and `none` for
the underflow to a signed zero (working exponent below −1075). -/
def roundingOf (n : Normalised) : Option Rounding :=
  if n.we ≤ -1023 then
    if n.we < -1075 then none
    else some { shift := 52 + n.pre + (-1023 + 1 - n.we).toNat, we := -1023 }
  else some { shift := 52 + n.pre, we := n.we }

/-- R85: round to nearest, ties to even, of `pn / 2^shift`; every shifted-out bit is in the remainder. -/
def roundedKept (pn shift : Nat) : Nat :=
  let kept := pn >>> shift
  let remainder := pn % 2 ^ shift
  let halfway := 2 ^ (shift - 1)
  if remainder > halfway ∨ (remainder = halfway ∧ kept % 2 = 1) then kept + 1 else kept

/-- Whether R85 carried out of the kept field (R86): 2^53 in the normal range, 2^52 at the subnormal marker. -/
def carriesOut (we : Int) (kept : Nat) : Bool := decide (kept = 2 ^ 53 ∨ (we = -1023 ∧ kept = 2 ^ 52))

/-- R86: the exponent after the carry. No test against 1024 follows, in either setting. -/
def carriedExponent (rc : RoundCarry) (we : Int) (kept : Nat) : Int :=
  if carriesOut we kept = true ∧ rc = .propagate then we + 1 else we

/-- R85 to R87: round, carry, compose. -/
def roundAndCompose (rc : RoundCarry) (sign : Bool) (pn : Nat) (g : Rounding) : FloatValue :=
  let kept := roundedKept pn g.shift
  composed sign (carriedExponent rc g.we kept) kept

/-- R83 to R87: overflow check before rounding, underflow, rounding. -/
def finishNormalised (rc : RoundCarry) (sign : Bool) (n : Normalised) : FloatValue :=
  if 1024 ≤ n.we then infinityOf sign
  else
    match roundingOf n with
    | none => signedZero sign
    | some g => roundAndCompose rc sign n.pn g

/-- R80: `NORMROUND(sign, we, P)` for `P < 2^106`. `P = 0` gives the signed zero whatever `we` is (R81, conflict C2;
notes/assumptions/15.md). -/
def normRounded (rc : RoundCarry) (sign : Bool) (we : Int) (p : Nat) : FloatValue :=
  if p = 0 then signedZero sign else finishNormalised rc sign (normalised we p)

/-! ### Multiplier -/

/-- R103: the exclusive-or of the operands' signs. -/
def resultSign (a b : FloatValue) : Bool := Bool.xor (signBit a) (signBit b)

/-- The full mantissa of an operand (R106). -/
def operandMantissa (a : FloatValue) : Nat := (fullMantissa (decomposed a).exponent (decomposed a).mantissa).1

/-- The exponent adjustment of an operand (R106). -/
def operandAdjustment (a : FloatValue) : Int := (fullMantissa (decomposed a).exponent (decomposed a).mantissa).2

/-- R107: the sum of the stored exponents and the adjustments. -/
def workingExponent (a b : FloatValue) : Int :=
  (decomposed a).exponent + (decomposed b).exponent + operandAdjustment a + operandAdjustment b

/-- R108: the exact product of the full mantissas. -/
def exactProduct (a b : FloatValue) : Nat := operandMantissa a * operandMantissa b

/-- R101, R103 to R109: what MUL gives when no operand is a NaN, in the written order: infinity with its zero
sub-case, zero, then the arithmetic path. -/
def mulNonNaN (p : Params) (a b : FloatValue) : FloatValue :=
  if isInfinity a || isInfinity b then
    if isZero a || isZero b then canonicalNaN p else infinityOf (resultSign a b)
  else if isZero a || isZero b then signedZero (resultSign a b)
  else normRounded p.roundCarry (resultSign a b) (workingExponent a b) (exactProduct a b)

/-- R100: `MUL(a, b)`; a NaN operand ends it before the sign is formed (R101, R102). -/
def product (p : Params) (a b : FloatValue) : FloatValue :=
  match nanPropagated a b with
  | some n => n
  | none => mulNonNaN p a b

/-! ### Driving the ports -/

/-- The output ports before an operation drives its own: every one free (R41, U2, U3; notes/assumptions/4.md). -/
def State.undriven (s : State) : Outputs := Config.freeOutputs s.draws s.inp

/-- The state after one evaluation: the outputs, and the count of free values advanced. The input ports and the
parameters are as they were (R10, R14). -/
def State.drive (s : State) (o : Outputs) : State := { s with out := o, draws := s.draws + 1 }

/-- Drive `r` alone. -/
def State.driveR (s : State) (v : FloatValue) : State := s.drive { s.undriven with r := v }

/-- Drive `flag` alone. -/
def State.driveFlag (s : State) (v : Bool) : State := s.drive { s.undriven with flag := v }

end Sys2Proof.Machine
end

