-- ==== Sys2Proof/Machine/BitEncoding.lean ====
section
/-! DEFINITION. The meanings of the BitEncoding operations: DECOMPOSE, COMPOSE, NEGATE, CMPLT, CMPGT, CMPEQ
(40_bit_encoding.md R51 to R57). -/

namespace Sys2Proof.Machine

/-- DECOMPOSE (R51): reads `a`, drives `s_out`, `e_out`, `m_out`. -/
def execDecompose (s : State) : Host.Outcome State Fault Refusal :=
  .next (s.drive { s.undriven with
    sOut := (decomposed s.inp.a).sign
    eOut := exponentOut (decomposed s.inp.a).exponent
    mOut := (decomposed s.inp.a).mantissa })

/-- COMPOSE (R52): reads `s_in`, `e_in`, `m_in`, drives `r`. -/
def execCompose (s : State) : Host.Outcome State Fault Refusal :=
  .next (s.driveR (composed s.inp.sIn (exponentIn s.inp) (mantissaIn s.inp)))

/-- NEGATE (R54): reads `a`, drives `r`. -/
def execNegate (s : State) : Host.Outcome State Fault Refusal :=
  .next (s.driveR (negated s.inp.a))

/-- CMPLT (R55): reads `a`, `b`, drives `flag`. -/
def execCmplt (s : State) : Host.Outcome State Fault Refusal :=
  .next (s.driveFlag (rawLess s.inp.a s.inp.b))

/-- CMPGT (R56): reads `a`, `b`, drives `flag`. -/
def execCmpgt (s : State) : Host.Outcome State Fault Refusal :=
  .next (s.driveFlag (rawGreater s.inp.a s.inp.b))

/-- CMPEQ (R57): reads `a`, `b`, drives `flag`. -/
def execCmpeq (s : State) : Host.Outcome State Fault Refusal :=
  .next (s.driveFlag (rawEqual s.inp.a s.inp.b))

end Sys2Proof.Machine
end

