-- ==== Sys2Proof/Machine/Multiply.lean ====
section
/-! DEFINITION. The meanings of MUL (43_fp_multiplier.md R100) and NORMROUND (42_normalizer_rounder.md R80). -/

namespace Sys2Proof.Machine

/-- MUL (R100): reads `a`, `b`, drives `r`. -/
def execMul (s : State) : Host.Outcome State Fault Refusal :=
  .next (s.driveR (product s.params s.inp.a s.inp.b))

/-- NORMROUND (R80): reads `s_in`, `e_in`, `p_in`, drives `r`; defined for every value the ports carry (D12). -/
def execNormround (s : State) : Host.Outcome State Fault Refusal :=
  .next (s.driveR (normRounded s.params.roundCarry s.inp.sIn (exponentIn s.inp) (productIn s.inp)))

end Sys2Proof.Machine
end

