-- ==== Sys2Proof/Machine/SpecialValues.lean ====
section
/-! DEFINITION. The meanings of the special_value_handler's operations: CLASSIFY, NANPROP, CANONNAN, INF
(41_special_values.md R67, R68, R70, R71). -/

namespace Sys2Proof.Machine

/-- CLASSIFY (R67): reads `a`, drives `cls`. -/
def execClassify (s : State) : Host.Outcome State Fault Refusal :=
  .next (s.drive { s.undriven with cls := classVector s.inp.a })

/-- NANPROP (R68): reads `a`, `b`, drives `hit`, and `r` when `hit = 1`; `r` is free when `hit = 0` (U2). -/
def execNanprop (s : State) : Host.Outcome State Fault Refusal :=
  match nanPropagated s.inp.a s.inp.b with
  | some v => .next (s.drive { s.undriven with hit := true, r := v })
  | none => .next (s.drive { s.undriven with hit := false })

/-- CANONNAN (R70): reads nothing, drives `r`. -/
def execCanonnan (s : State) : Host.Outcome State Fault Refusal :=
  .next (s.driveR (canonicalNaN s.params))

/-- INF (R71): reads `s_in`, drives `r`. -/
def execInf (s : State) : Host.Outcome State Fault Refusal :=
  .next (s.driveR (infinityOf s.inp.sIn))

end Sys2Proof.Machine
end

