-- ==== Sys2Proof/Machine/Dispatch.lean ====
section
/-! DEFINITION. One arm per operation of 30_encoding.md R42. -/

namespace Sys2Proof.Machine

def exec (i : Instr) (s : State) : Host.Outcome State Fault Refusal :=
  match i with
  | .mul => Sys2Proof.Machine.execMul s
  | .decompose => Sys2Proof.Machine.execDecompose s
  | .compose => Sys2Proof.Machine.execCompose s
  | .classify => Sys2Proof.Machine.execClassify s
  | .nanprop => Sys2Proof.Machine.execNanprop s
  | .canonnan => Sys2Proof.Machine.execCanonnan s
  | .inf => Sys2Proof.Machine.execInf s
  | .normround => Sys2Proof.Machine.execNormround s
  | .negate => Sys2Proof.Machine.execNegate s
  | .cmplt => Sys2Proof.Machine.execCmplt s
  | .cmpgt => Sys2Proof.Machine.execCmpgt s
  | .cmpeq => Sys2Proof.Machine.execCmpeq s

end Sys2Proof.Machine
end

