-- ==== Sys2Proof/Machine/Settle.lean ====
section
/-! DEFINITION. The outputs as the function of the current inputs (10_state.md R19, decision D1): whenever the input
ports change, the output ports follow, with no step in between. -/

namespace Sys2Proof.Machine

/-- What the output ports show while the input ports carry what they carry: what the operation the selector names
drives, and every port unspecified while the selector is reserved (30_encoding.md R43, U1). -/
def State.outputsNow (s : State) : Outputs :=
  match decode s.inp.op with
  | .ok i =>
    match exec i s with
    | .next t => t.out
    | .fault _ => s.undriven
    | .refused _ => s.undriven
  | .error _ => s.undriven

/-- The block after its input ports changed: the outputs are the function of them (R19). The undriven ones are fresh
free values (notes/assumptions/4.md). -/
def State.settle (s : State) : State := s.drive s.outputsNow

end Sys2Proof.Machine
end

