-- ==== Sys2Proof/Machine/Step.lean ====
section
/-! DEFINITION. One step: the evaluation of the operation that stands on the input ports (10_state.md R10, decision
D1). There is no fetch and no program counter (R12): the selector port says which operation. -/

namespace Sys2Proof.Machine

/-- Evaluate the operation the selector names; a reserved selector is refused by name (30_encoding.md R43, D9). -/
def step (s : State) : Host.Outcome State Fault Refusal :=
  match decode s.inp.op with
  | .ok i => exec i s
  | .error (.reservedSelector op) => .refused (.reservedSelector op)

/-- The selector of a table word presented on `op` (notes/assumptions/9.md). No other input port changes, since the
operands are the other ports; the outputs follow the inputs (10_state.md R19). -/
def State.withFetchWord (s : State) (nbits w : Nat) : State :=
  { s with inp := { s.inp with op := selectorOfTableWord nbits w } }.settle

end Sys2Proof.Machine
end

