-- ==== Sys2Proof/Machine/Caller.lean ====
section
/-! DEFINITION. The caller's side of the block (60_exceptions.md R139): presenting operands, reading the driven
outputs, a reset, the operations as functions (30_encoding.md R40), and the pseudo-operations (R45, R50). -/

namespace Sys2Proof.Machine

/-! ### Presenting and reading -/

/-- The caller drives every input port, and the outputs follow at once (10_state.md R19, decision D1). -/
def State.withInputs (s : State) (x : Inputs) : State := { s with inp := x }.settle

/-- The caller presents a call: the selector and the ports it names; the outputs follow (R19). -/
def State.present (s : State) (c : Call) : State := s.withInputs (encodeCall c s.inp)

/-- The outputs a caller may read after an operation: the ports its row of R42 drives, `r` of NANPROP only when
`hit = 1` (R68). `e_out` is read by sign extension (R41). -/
def visible (i : Instr) (o : Outputs) : Visible :=
  match i with
  | .mul => { r := some o.r }
  | .decompose => { sOut := some o.sOut, eOut := some o.eOut.toInt, mOut := some o.mOut.toNat }
  | .compose => { r := some o.r }
  | .classify => { cls := some o.cls }
  | .nanprop => { hit := some o.hit, r := if o.hit then some o.r else none }
  | .canonnan => { r := some o.r }
  | .inf => { r := some o.r }
  | .normround => { r := some o.r }
  | .negate => { r := some o.r }
  | .cmplt => { flag := some o.flag }
  | .cmpgt => { flag := some o.flag }
  | .cmpeq => { flag := some o.flag }

/-- Two input tuples agree on the ports an operation reads (the column `inputs read` of R42). -/
def agreeOn (i : Instr) (x y : Inputs) : Prop :=
  match i with
  | .mul => x.a = y.a ∧ x.b = y.b
  | .decompose => x.a = y.a
  | .compose => x.sIn = y.sIn ∧ x.eIn = y.eIn ∧ x.mIn = y.mIn
  | .classify => x.a = y.a
  | .nanprop => x.a = y.a ∧ x.b = y.b
  | .canonnan => True
  | .inf => x.sIn = y.sIn
  | .normround => x.sIn = y.sIn ∧ x.eIn = y.eIn ∧ x.pIn = y.pIn
  | .negate => x.a = y.a
  | .cmplt => x.a = y.a ∧ x.b = y.b
  | .cmpgt => x.a = y.a ∧ x.b = y.b
  | .cmpeq => x.a = y.a ∧ x.b = y.b

/-- A reset (70_reset_and_hazards.md R140): there is no state to initialise, and the parameters are fixed when the
block is built (R141); the ports stand as `State.reset` names them. -/
def State.afterReset (s : State) : State := { State.reset with params := s.params }

/-! ### The operations as functions (R40, R45) -/

/-- What a call returns, as a function of its operands and the parameters (R8). `none` is the one refusal of the
function view: NORMROUND of a product of 2^106 or more (R80, 93 U5). COMPOSE is defined for all integers and naturals
(D13). -/
def callResult (p : Config.Params) : Call → Option Visible
  | .mul a b => some { r := some (product p a b) }
  | .decompose a =>
    some { sOut := some (decomposed a).sign, eOut := some (decomposed a).exponent,
           mOut := some (decomposed a).mantissa.toNat }
  | .compose sign e m => some { r := some (composed sign e m) }
  | .classify a => some { cls := some (classVector a) }
  | .nanprop a b => some { hit := some (nanPropagated a b).isSome, r := nanPropagated a b }
  | .canonnan => some { r := some (canonicalNaN p) }
  | .inf sign => some { r := some (infinityOf sign) }
  | .normround sign we q => if q < 2 ^ 106 then some { r := some (normRounded p.roundCarry sign we q) } else none
  | .negate a => some { r := some (negated a) }
  | .cmplt a b => some { flag := some (rawLess a b) }
  | .cmpgt a b => some { flag := some (rawGreater a b) }
  | .cmpeq a b => some { flag := some (rawEqual a b) }

/-! ### Pseudo-operations (R45): each its expansion -/

/-- FROMBITS (R50): a wire. -/
def fromBits (x : BitVec 64) : FloatValue := x

/-- Bit `k` of `CLASSIFY(a)`. -/
def classBit (p : Config.Params) (k : Nat) (a : FloatValue) : Option Bool :=
  (callResult p (.classify a)).bind (fun v => v.cls.map (fun c => c.getLsbD k))

/-- ISZERO: bit 0 of `CLASSIFY`. -/
def pseudoIsZero (p : Config.Params) (a : FloatValue) : Option Bool := classBit p 0 a
/-- ISSUBNORMAL: bit 1 of `CLASSIFY`. -/
def pseudoIsSubnormal (p : Config.Params) (a : FloatValue) : Option Bool := classBit p 1 a
/-- ISNORMAL: bit 2 of `CLASSIFY`. -/
def pseudoIsNormal (p : Config.Params) (a : FloatValue) : Option Bool := classBit p 2 a
/-- ISINF: bit 3 of `CLASSIFY`. -/
def pseudoIsInf (p : Config.Params) (a : FloatValue) : Option Bool := classBit p 3 a
/-- ISNAN: bit 4 of `CLASSIFY`. -/
def pseudoIsNaN (p : Config.Params) (a : FloatValue) : Option Bool := classBit p 4 a
/-- ISQNAN: bit 5 of `CLASSIFY`. -/
def pseudoIsQNaN (p : Config.Params) (a : FloatValue) : Option Bool := classBit p 5 a
/-- ISSNAN: bit 6 of `CLASSIFY`. -/
def pseudoIsSNaN (p : Config.Params) (a : FloatValue) : Option Bool := classBit p 6 a
/-- SIGN: the first result of `DECOMPOSE`. -/
def pseudoSign (p : Config.Params) (a : FloatValue) : Option Bool := (callResult p (.decompose a)).bind (fun v => v.sOut)
/-- EXPONENT: the second result of `DECOMPOSE`. -/
def pseudoExponent (p : Config.Params) (a : FloatValue) : Option Int :=
  (callResult p (.decompose a)).bind (fun v => v.eOut)
/-- MANTISSA: the third result of `DECOMPOSE`. -/
def pseudoMantissa (p : Config.Params) (a : FloatValue) : Option Nat :=
  (callResult p (.decompose a)).bind (fun v => v.mOut)

end Sys2Proof.Machine
end

