-- ==== Sys2Proof/Machine/ClosedForm.lean ====
section
/-! DEFINITION. The equivalent closed form of NORMROUND (42_normalizer_rounder.md R88): left-justify the product at bit
105 and let one right shift do everything. No operation uses it; a statement says that it agrees with R80. -/

namespace Sys2Proof.Machine

/-- R88, for `0 < P < 2^106`: `z = clz_106(P)`, `N = P << z`, `e = we + 1 − z`. -/
def closedForm (rc : Config.RoundCarry) (sign : Bool) (we : Int) (p : Nat) : FloatValue :=
  let e := we + 1 - clz 106 p
  if 1024 ≤ e then infinityOf sign
  else if e < -1075 then signedZero sign
  else
    let kept := roundedKept (p <<< clz 106 p) (53 + (max 0 (-1022 - e)).toNat)
    composed sign (carriedExponent rc (max e (-1023)) kept) kept

end Sys2Proof.Machine
end

