-- ==== Sys2Proof/Machine/Value.lean ====
section
/-! DEFINITION. The numbers patterns denote (30_encoding.md R35, R36) and the binary64 grid of the correctness rules
(42_normalizer_rounder.md R89, 43_fp_multiplier.md R111). No operation uses this file: it is the vocabulary of
statements. The table of R35 and the grid are the spec's general-knowledge passage G2 (notes/assumptions/17.md). -/

namespace Sys2Proof.Machine

/-- R36: the full mantissa of a finite operand, straight from its fields. -/
def significand (a : FloatValue) : Nat :=
  if (expField a).toNat = 0 then (mantField a).toNat else 2 ^ 52 + (mantField a).toNat

/-- R36: the effective exponent of a finite operand. -/
def effectiveExponent (a : FloatValue) : Int :=
  if (expField a).toNat = 0 then -1022 else ((expField a).toNat : Int) - 1023

/-- The magnitude of a finite pattern (R35): full mantissa · 2^(effective exponent − 52). -/
def magnitude (a : FloatValue) : ℚ := (significand a : ℚ) * (2 : ℚ) ^ (effectiveExponent a - 52)

/-- What a pattern denotes (R35). -/
inductive Denoted
  | number (q : ℚ)
  | infinite (negative : Bool)
  | notANumber
deriving DecidableEq

/-- R35, the whole table: both zeros denote 0. -/
def denoted (a : FloatValue) : Denoted :=
  if isNaN a then .notANumber
  else if isInfinity a then .infinite (signBit a)
  else .number (if signBit a then -magnitude a else magnitude a)

/-- The magnitude with infinity above every number, for the meaning of the comparisons (40_bit_encoding.md R58). -/
def extendedMagnitude (a : FloatValue) : WithTop ℚ := if isInfinity a then ⊤ else ((magnitude a : ℚ) : WithTop ℚ)

/-- Neither a NaN nor an infinity nor a zero: a normal or a subnormal (R33). -/
def isFiniteNonzero (a : FloatValue) : Bool := !isNaN a && !isInfinity a && !isZero a

/-- The 63 bits `{E, M}` of a pattern as a number: the index of its magnitude on the grid. -/
def gridIndex (a : FloatValue) : Nat := a.toNat % 2 ^ 63

/-- The index of the infinity pattern. -/
def infinityIndex : Nat := 2047 * 2 ^ 52

/-- The magnitude at an index: multiples of 2^−1074 up to 2^−1022, 53 significant bits above; the infinity's index
stands for 2^1024, the magnitude at which R89 goes over to infinity. -/
def gridMagnitude (n : Nat) : ℚ :=
  if n / 2 ^ 52 = 0 then ((n % 2 ^ 52 : Nat) : ℚ) * (2 : ℚ) ^ (-1074 : Int)
  else ((2 ^ 52 + n % 2 ^ 52 : Nat) : ℚ) * (2 : ℚ) ^ (((n / 2 ^ 52 : Nat) : Int) - 1075)

/-- Round to nearest, ties to even, on the grid (R89): no index is nearer to `x` than `n`, and an equally near one
leaves `n` the one whose least significant bit is even. -/
def RoundsToNearestEven (x : ℚ) (n : Nat) : Prop :=
  n ≤ infinityIndex ∧
    ∀ m, m ≤ infinityIndex → m ≠ n →
      |gridMagnitude n - x| < |gridMagnitude m - x| ∨
        (|gridMagnitude n - x| = |gridMagnitude m - x| ∧ n % 2 = 0)

/-- The real number the inputs of NORMROUND denote, without its sign (R80, R37): `P · 2^(we − 104)`. -/
def inputMagnitude (we : Int) (p : Nat) : ℚ := (p : ℚ) * (2 : ℚ) ^ (we - 104)

end Sys2Proof.Machine
end

