-- ==== Sys2Proof/Safety.lean ====
section
/-! DEFINITION. What counts as a safe run, in the terms the statements use. The block cannot fault and keeps nothing
(60_exceptions.md R130, 10_state.md R10), so safety is that the outputs are the function of the inputs (R19, decision
D1) and that nothing but outputs changes. -/

namespace Sys2Proof.Machine

/-- The driven outputs are those of the call that stands on the input ports (R19, D1). Every way a state changes makes
it so: a step, the caller's presenting, a reset. It says nothing where the selector is reserved. -/
def State.Settled (s : State) : Prop :=
  ∀ c, decodeCall s.inp = .ok c → callResult s.params c = some (visible c.instr s.out)

/-- Nothing changed but the output ports and the model's count of free values: the whole frame of an operation
(R10, R14, R41). -/
def State.OnlyOutputsChanged (s t : State) : Prop := t.params = s.params ∧ t.inp = s.inp ∧ t.draws = s.draws + 1

/-- The operation completes: `exec` answers a next state in which only outputs changed, and `post` holds of it. -/
def Completes (i : Instr) (s : State) (post : State → Prop) : Prop :=
  ∃ t, exec i s = .next t ∧ s.OnlyOutputsChanged t ∧ post t

end Sys2Proof.Machine
end

