-- ==== Sys2Proof/Certificates/Slice0/Obligations.lean ====
section
/-! DEFINITION. The statements for the provers, by the file of spec/ they come from. `Completes i s post` says that
operation `i` answers a next state, that only output ports (and the model's count of free values) changed, and that
`post` holds. An output port an operation does not drive is a free value and no statement speaks of it. -/

open Sys2Proof Sys2Proof.Machine

/-! ### The machine as a whole -/

/-- A step evaluates the operation its selector names, and presenting a table word makes the very next step evaluate
the operation the decoder reads from it. The selector values are the spec's own decision D2; the second clause (how a
table word is presented, and that only its low four bits are the selector) is the MODEL's choice, notes/assumptions/9.md
and 10.md (DESIGN CHOICE). -/
def Obligations.StepRunsSelectedOperation : Prop :=
  (∀ (s : State) (i : Instr), decode s.inp.op = .ok i → step s = exec i s) ∧
  (∀ (s : State) (nbits w : Nat) (i : Instr), decodeTableWord nbits w = some i →
    step (s.withFetchWord nbits w) = exec i (s.withFetchWord nbits w))

/-- Every operation of R42 is total, a step has no fault outcome, and the only refusal is a reserved selector (60
section 1). That the operations are the selectors below 12 is decision D2 (notes/assumptions/21.md), that a model
refuses the others by name is decision D9 (notes/assumptions/11.md), that Fault is empty is notes/assumptions/23.md. -/
def Obligations.StepIsTotalAndNeverFaults : Prop :=
  ∀ s : State,
    (s.inp.op.toNat < 12 → ∃ t, step s = .next t) ∧
    (12 ≤ s.inp.op.toNat → step s = .refused (.reservedSelector s.inp.op)) ∧
    (∀ f : Fault, step s ≠ .fault f)

/-- The table of R42 (selector values: decision D2), each word written out bit by bit, and its four reserved words. -/
def Obligations.SelectorTableWords : Prop :=
  decode 0b0000#4 = .ok .mul ∧ decode 0b0001#4 = .ok .decompose ∧ decode 0b0010#4 = .ok .compose ∧
  decode 0b0011#4 = .ok .classify ∧ decode 0b0100#4 = .ok .nanprop ∧ decode 0b0101#4 = .ok .canonnan ∧
  decode 0b0110#4 = .ok .inf ∧ decode 0b0111#4 = .ok .normround ∧ decode 0b1000#4 = .ok .negate ∧
  decode 0b1001#4 = .ok .cmplt ∧ decode 0b1010#4 = .ok .cmpgt ∧ decode 0b1011#4 = .ok .cmpeq ∧
  decode 0b1100#4 = .error (.reservedSelector 0b1100#4) ∧ decode 0b1101#4 = .error (.reservedSelector 0b1101#4) ∧
  decode 0b1110#4 = .error (.reservedSelector 0b1110#4) ∧ decode 0b1111#4 = .error (.reservedSelector 0b1111#4)

/-- Selector and operation determine each other. -/
def Obligations.SelectorsAndOperationsMatch : Prop :=
  (∀ i : Instr, decode (encode i) = .ok i) ∧ (∀ (op : Selector) (i : Instr), decode op = .ok i → encode i = op)

/-- Every call whose operands fit their ports, with every operand at every value the ports admit, is read back from
the ports it was presented on, whatever the other ports carry (port widths: decision D3). -/
def Obligations.PresentedCallIsReadBack : Prop :=
  ∀ (c : Call) (x : Inputs), c.wellFormed = true → decodeCall (encodeCall c x) = .ok c

/-- What is read from the ports fits them, and presenting it again changes no port: no bit of a port is read wrong or
dropped (port widths: decision D3). -/
def Obligations.ReadCallFitsItsPorts : Prop :=
  ∀ (x : Inputs) (c : Call), decodeCall x = .ok c → c.wellFormed = true ∧ encodeCall c x = x

/-- The frame and the completion of every operation: MUL, DECOMPOSE, COMPOSE, CLASSIFY, NANPROP, CANONNAN, INF,
NORMROUND, NEGATE, CMPLT, CMPGT, CMPEQ each answer a next state in every state, and no input port and no parameter
changes. -/
def Obligations.EveryOperationCompletesWithItsFrame : Prop :=
  ∀ (i : Instr) (s : State), Completes i s (fun _ => True)

/-- An operation reads only the ports its row of R42 names (R41; the ports are decision D3): two states that agree on
those and on the parameters give the same driven outputs. -/
def Obligations.ResultsDependOnlyOnReadPorts : Prop :=
  ∀ (i : Instr) (s t : State), s.params = t.params → agreeOn i s.inp t.inp →
    ∃ s' t', exec i s = .next s' ∧ exec i t = .next t' ∧ visible i s'.out = visible i t'.out

/-- Statelessness: a step's driven outputs depend on the inputs and the parameters, whatever was evaluated before. -/
def Obligations.NoResultDependsOnEarlierOperations : Prop :=
  ∀ (s t : State) (i : Instr), decode s.inp.op = .ok i → s.inp = t.inp → s.params = t.params →
    ∃ s' t', step s = .next s' ∧ step t = .next t' ∧ visible i s'.out = visible i t'.out

/-- A reset has no architectural effect: any operation presented after it gives what it gives before it. R140 rests on
decisions D1 and D10; that the parameters stay is R141. -/
def Obligations.ResetChangesNoResult : Prop :=
  ∀ (s : State) (x : Inputs) (i : Instr), decode x.op = .ok i →
    ∃ t u, step (s.withInputs x) = .next t ∧ step (s.afterReset.withInputs x) = .next u ∧
      visible i t.out = visible i u.out

/-- Evaluating again on the same inputs returns the same (R23, which rests on decision D1). That a step leaves the input
ports as they are, so that the second step finds them unchanged, is the MODEL's choice, notes/assumptions/9.md (DESIGN
CHOICE). -/
def Obligations.EvaluatingAgainReturnsTheSame : Prop :=
  ∀ (s t : State) (i : Instr), decode s.inp.op = .ok i → step s = .next t →
    ∃ u, step t = .next u ∧ u.inp = s.inp ∧ visible i u.out = visible i t.out

/-- The values of `State.reset`: the MODEL's choices, the spec giving no reset value (R19). The zeros of the ports are
notes/assumptions/2.md and 3.md (DESIGN CHOICE), the parameters are the spec's defaults D4 and D5
(notes/assumptions/6.md, 7.md). -/
def Obligations.ResetLeavesTheNamedValues : Prop :=
  core.reset = State.reset ∧
  canonicalNaN State.reset.params = 0x7FF8000000000000#64 ∧ State.reset.params.roundCarry = .propagate ∧
  State.reset.inp = ⟨0, 0, 0, false, 0, 0, 0⟩ ∧ State.reset.out = ⟨0, false, 0, 0, 0, false, false⟩

/-- The outputs at reset are those of the operation its inputs name (MUL of +0 and +0). It rests on the reset values
the model chose (notes/assumptions/2.md, 3.md). -/
def Obligations.ResetOutputsAreSettled : Prop := State.reset.Settled

/-- The invariant that the driven outputs are the function of the inputs (R19, decision D1): every step keeps it. -/
def Obligations.EveryStepKeepsOutputsSettled : Prop :=
  ∀ s t : State, s.Settled → step s = .next t → t.Settled

/-- The operations as functions of integers and naturals (R40, D3) and the block with ports agree: presenting a call
that fits its ports, one step drives what the function returns. -/
def Obligations.PortsAgreeWithFunctions : Prop :=
  ∀ (c : Call) (s : State), c.wellFormed = true →
    ∃ t, step (s.present c) = .next t ∧ (s.present c).OnlyOutputsChanged t ∧
      callResult s.params c = some (visible c.instr t.out)

/-- The one refusal of the function view is NORMROUND of a product of 2^106 or more (93 U5); COMPOSE is defined for all
integers and naturals (decision D13). -/
def Obligations.OnlyOversizedProductIsRefused : Prop :=
  ∀ (p : Config.Params) (c : Call),
    callResult p c = none ↔ ∃ sign we q, c = .normround sign we q ∧ 2 ^ 106 ≤ q

/-- The pseudo-operations of R45 are the predicates and fields of R60 to R66 and R51 (CLASSIFY's bits: D14). -/
def Obligations.PseudoOperationsGiveTheirFields : Prop :=
  ∀ (p : Config.Params) (a : FloatValue),
    fromBits a = a ∧
    pseudoIsZero p a = some (isZero a) ∧ pseudoIsSubnormal p a = some (isSubnormal a) ∧
    pseudoIsNormal p a = some (isNormal a) ∧ pseudoIsInf p a = some (isInfinity a) ∧
    pseudoIsNaN p a = some (isNaN a) ∧ pseudoIsQNaN p a = some (isQuietNaN a) ∧
    pseudoIsSNaN p a = some (isSignalingNaN a) ∧ pseudoSign p a = some (decide (2 ^ 63 ≤ a.toNat)) ∧
    pseudoExponent p a = some (((a.toNat / 2 ^ 52 % 2 ^ 11 : Nat) : Int) - 1023) ∧
    pseudoMantissa p a = some (a.toNat % 2 ^ 52)

/-! ### 40_bit_encoding.md: DECOMPOSE, COMPOSE, NEGATE, CMPLT, CMPGT, CMPEQ -/

/-- R51: the three fields, as numbers on the ports, and the invariant of the triple. -/
def Obligations.DecomposeGivesTheFields : Prop :=
  ∀ s : State, Completes .decompose s (fun t =>
    t.out.sOut = decide (2 ^ 63 ≤ s.inp.a.toNat) ∧
    t.out.eOut.toInt = ((s.inp.a.toNat / 2 ^ 52 % 2 ^ 11 : Nat) : Int) - 1023 ∧
    t.out.mOut.toNat = s.inp.a.toNat % 2 ^ 52 ∧
    -1023 ≤ t.out.eOut.toInt ∧ t.out.eOut.toInt ≤ 1024)

/-- COMPOSE at the ports: the re-biased exponent masked to 11 bits, the mantissa to 52, no validation. For a negative
re-biased exponent the Euclidean remainder is the spec's decision D7 (notes/assumptions/13.md); port widths: D3. -/
def Obligations.ComposeMasksItsPorts : Prop :=
  ∀ s : State, Completes .compose s (fun t =>
    t.out.r.toNat = (if s.inp.sIn then 2 ^ 63 else 0) +
      ((s.inp.eIn.toInt + 1023) % 2 ^ 11).toNat * 2 ^ 52 + s.inp.mIn.toNat % 2 ^ 52)

/-- COMPOSE as a function of every integer and natural (decision D13; negative re-biased exponents: D7). -/
def Obligations.ComposeOfAnyIntegers : Prop :=
  ∀ (p : Config.Params) (sign : Bool) (e : Int) (m : Nat), ∃ v : FloatValue,
    callResult p (.compose sign e m) = some { r := some v } ∧
    v.toNat = (if sign then 2 ^ 63 else 0) + ((e + 1023) % 2 ^ 11).toNat * 2 ^ 52 + m % 2 ^ 52

/-- R53, the law: on the stated ranges DECOMPOSE returns the triple COMPOSE was given, and outside them it fails on the
rule's instance. -/
def Obligations.DecomposeUndoesCompose : Prop :=
  (∀ (p : Config.Params) (sign : Bool) (e : Int) (m : Nat), -1023 ≤ e → e ≤ 1024 → m < 2 ^ 52 →
    callResult p (.decompose (composed sign e m)) = some { sOut := some sign, eOut := some e, mOut := some m }) ∧
  (∀ p : Config.Params, callResult p (.decompose (composed false 1025 0)) =
    some { sOut := some false, eOut := some (-1023), mOut := some 0 })

/-- The converse of the round trip, which R53 marks as its own inference: COMPOSE rebuilds every pattern. -/
def Obligations.ComposeUndoesDecompose : Prop :=
  ∀ (p : Config.Params) (a : FloatValue), ∃ (sign : Bool) (e : Int) (m : Nat),
    callResult p (.decompose a) = some { sOut := some sign, eOut := some e, mOut := some m } ∧
    callResult p (.compose sign e m) = some { r := some a }

/-- R54: bit 63 flipped, bits 62:0 unchanged, for every pattern. -/
def Obligations.NegateFlipsOnlyTheSign : Prop :=
  ∀ s : State, Completes .negate s (fun t =>
    t.out.r.toNat = (s.inp.a.toNat + 2 ^ 63) % 2 ^ 64 ∧
    t.out.r.getLsbD 63 = !s.inp.a.getLsbD 63 ∧ ∀ k, k < 63 → t.out.r.getLsbD k = s.inp.a.getLsbD k)

/-- Negating twice gives the operand back, and NEGATE keeps every class (R54 and R67 mark these as inferences). -/
def Obligations.NegateTwiceAndClasses : Prop :=
  ∀ (p : Config.Params) (a : FloatValue),
    callResult p (.negate (negated a)) = some { r := some a } ∧
    callResult p (.classify (negated a)) = callResult p (.classify a)

/-- R55, R56, R57: the flags are the unsigned comparisons of the patterns. -/
def Obligations.ComparisonsAreUnsigned : Prop :=
  ∀ s : State,
    Completes .cmplt s (fun t => (t.out.flag = true ↔ s.inp.a.toNat < s.inp.b.toNat)) ∧
    Completes .cmpgt s (fun t => (t.out.flag = true ↔ s.inp.a.toNat > s.inp.b.toNat)) ∧
    Completes .cmpeq s (fun t => (t.out.flag = true ↔ s.inp.a = s.inp.b))

/-- For non-NaN operands of one sign the flags compare the magnitudes the patterns denote, infinity above every number,
and CMPEQ says that the same value is denoted (R58's numeric reading, which the rule marks as its own inference; values:
R35, notes/assumptions/17.md). -/
def Obligations.ComparisonsOrderMagnitudes : Prop :=
  ∀ s : State, isNaN s.inp.a = false → isNaN s.inp.b = false → signBit s.inp.a = signBit s.inp.b →
    Completes .cmplt s (fun t => (t.out.flag = true ↔ extendedMagnitude s.inp.a < extendedMagnitude s.inp.b)) ∧
    Completes .cmpgt s (fun t => (t.out.flag = true ↔ extendedMagnitude s.inp.b < extendedMagnitude s.inp.a)) ∧
    Completes .cmpeq s (fun t => (t.out.flag = true ↔ denoted s.inp.a = denoted s.inp.b))

/-! ### 41_special_values.md: CLASSIFY, NANPROP, CANONNAN, INF -/

/-- The predicates of R60 to R66 on the fields `E`, `M` and bit 51, and the exact patterns the rules name. That CLASSIFY
delivers them as `cls[0]` … `cls[6]` is R67's gathering, the spec's own decision D14 (notes/assumptions/21.md). -/
def Obligations.ClassifyReadsTheFields : Prop :=
  ∀ s : State, Completes .classify s (fun t =>
    let e := s.inp.a.toNat / 2 ^ 52 % 2 ^ 11
    let m := s.inp.a.toNat % 2 ^ 52
    let quiet := s.inp.a.getLsbD 51
    (t.out.cls.getLsbD 0 = true ↔ e = 0 ∧ m = 0) ∧
    (t.out.cls.getLsbD 0 = true ↔ s.inp.a = 0x0000000000000000#64 ∨ s.inp.a = 0x8000000000000000#64) ∧
    (t.out.cls.getLsbD 1 = true ↔ e = 0 ∧ m ≠ 0) ∧
    (t.out.cls.getLsbD 1 = true ↔ 1 ≤ s.inp.a.toNat % 2 ^ 63 ∧ s.inp.a.toNat % 2 ^ 63 ≤ 0x000FFFFFFFFFFFFF) ∧
    (t.out.cls.getLsbD 2 = true ↔ 1 ≤ e ∧ e ≤ 2046) ∧
    (t.out.cls.getLsbD 3 = true ↔ e = 2047 ∧ m = 0) ∧
    (t.out.cls.getLsbD 3 = true ↔ s.inp.a = 0x7FF0000000000000#64 ∨ s.inp.a = 0xFFF0000000000000#64) ∧
    (t.out.cls.getLsbD 4 = true ↔ e = 2047 ∧ m ≠ 0) ∧
    (t.out.cls.getLsbD 5 = true ↔ (e = 2047 ∧ m ≠ 0) ∧ quiet = true) ∧
    (t.out.cls.getLsbD 6 = true ↔ e = 2047 ∧ quiet = false ∧ s.inp.a.toNat % 2 ^ 51 ≠ 0))

/-- R64: the condition of `isNaN`, and that it is true for 2^53 − 2 patterns. -/
def Obligations.NaNPatternsCounted : Prop :=
  (∀ a : FloatValue, isNaN a = true ↔ a.toNat / 2 ^ 52 % 2 ^ 11 = 2047 ∧ a.toNat % 2 ^ 52 ≠ 0) ∧
  Nat.card { a : FloatValue // isNaN a = true } = 2 ^ 53 - 2

/-- The first five classes partition the patterns and the last two split the NaNs (R33 and R67 mark this as an
inference). -/
def Obligations.ClassesPartitionThePatterns : Prop :=
  ∀ s : State, Completes .classify s (fun t =>
    (∃ k, k < 5 ∧ t.out.cls.getLsbD k = true ∧ ∀ j, j < 5 → t.out.cls.getLsbD j = true → j = k) ∧
    (t.out.cls.getLsbD 4 = Bool.or (t.out.cls.getLsbD 5) (t.out.cls.getLsbD 6)) ∧
    (t.out.cls.getLsbD 5 = false ∨ t.out.cls.getLsbD 6 = false))

/-- R34: the quiet bit is pattern bit 51; setting it in any NaN yields a quiet NaN with the same sign and bits 50:0; a
signaling NaN has it clear and one of bits 50:0 set. -/
def Obligations.QuietBitSplitsTheNaNs : Prop :=
  ∀ a : FloatValue, isNaN a = true →
    (isQuietNaN a = true ↔ a.getLsbD 51 = true) ∧
    (isSignalingNaN a = true ↔ a.getLsbD 51 = false) ∧
    (isSignalingNaN a = true → ∃ k, k < 51 ∧ a.getLsbD k = true) ∧
    isQuietNaN (quieted a) = true ∧ signBit (quieted a) = signBit a ∧
    ∀ k, k < 51 → (quieted a).getLsbD k = a.getLsbD k

/-- R68: `hit = 0` when neither operand is a NaN; otherwise `hit = 1` and `r` is the selected operand with bit 51 forced
set and its other 63 bits kept. -/
def Obligations.NanpropSelectsAndQuiets : Prop :=
  ∀ s : State,
    (isNaN s.inp.a = false → isNaN s.inp.b = false → Completes .nanprop s (fun t => t.out.hit = false)) ∧
    (isNaN s.inp.a = true ∨ isNaN s.inp.b = true → Completes .nanprop s (fun t =>
      t.out.hit = true ∧
      ∃ c : FloatValue,
        (c = if isSignalingNaN s.inp.b = true ∧ isSignalingNaN s.inp.a = false then s.inp.b
             else if isNaN s.inp.a = true then s.inp.a else s.inp.b) ∧
        t.out.r.getLsbD 51 = true ∧ ∀ k, k ≠ 51 → t.out.r.getLsbD k = c.getLsbD k))

/-- CANONNAN returns the parameter: a quiet NaN with the parameter's sign and payload; every quiet NaN is a value of the
parameter; the default is D4's. R70 rests on decision D4 (notes/assumptions/6.md). -/
def Obligations.CanonnanReturnsTheParameter : Prop :=
  (∀ s : State, Completes .canonnan s (fun t =>
    isQuietNaN t.out.r = true ∧
    t.out.r.toNat = (if s.params.canonicalNaN.sign then 2 ^ 63 else 0) + 0x7FF8000000000000 +
      s.params.canonicalNaN.payload.toNat)) ∧
  (∀ q : FloatValue, isQuietNaN q = true → ∃ p : Config.Params, canonicalNaN p = q) ∧
  canonicalNaN Config.defaults = 0x7FF8000000000000#64

/-- R71: sign · 2^63 + 0x7FF0000000000000. -/
def Obligations.InfGivesTheInfinity : Prop :=
  ∀ s : State, Completes .inf s (fun t =>
    t.out.r.toNat = (if s.inp.sIn then 2 ^ 63 else 0) + 0x7FF0000000000000)

/-! ### 42_normalizer_rounder.md: NORMROUND -/

/-- A zero product gives the zero of the sign, whatever the working exponent is and in both `ROUND_CARRY` settings.
R81 is decision D11 (notes/assumptions/15.md). -/
def Obligations.NormroundOfZeroProduct : Prop :=
  ∀ s : State, s.inp.pIn = 0 → Completes .normround s (fun t =>
    t.out.r.toNat = if s.inp.sIn then 2 ^ 63 else 0)

/-- What R82 says of its result (the rule marks it as its own inference): the leading bit at 104 + pre, and the number
denoted unchanged, in [2^we, 2^(we+1)). -/
def Obligations.NormalisationKeepsTheNumber : Prop :=
  ∀ (we : Int) (p : Nat), 0 < p → p < 2 ^ 106 →
    let n := normalised we p
    (n.pre = if p.testBit 105 then 1 else 0) ∧
    2 ^ (104 + n.pre) ≤ n.pn ∧ n.pn < 2 ^ (105 + n.pre) ∧
    inputMagnitude we p = (n.pn : ℚ) * (2 : ℚ) ^ (n.we - 104 - n.pre) ∧
    (2 : ℚ) ^ n.we ≤ inputMagnitude we p ∧ inputMagnitude we p < (2 : ℚ) ^ (n.we + 1)

/-- A magnitude of 2^1024 or more gives the infinity of the sign before any rounding, one below 2^−1075 the zero of the
sign, in both `ROUND_CARRY` settings (R83 and R84, whose reading as magnitudes is R82's inference). -/
def Obligations.NormroundOverflowAndUnderflow : Prop :=
  ∀ s : State, s.inp.pIn ≠ 0 →
    ((2 : ℚ) ^ (1024 : Int) ≤ inputMagnitude s.inp.eIn.toInt s.inp.pIn.toNat →
      Completes .normround s (fun t => t.out.r.toNat = (if s.inp.sIn then 2 ^ 63 else 0) + 0x7FF0000000000000)) ∧
    (inputMagnitude s.inp.eIn.toInt s.inp.pIn.toNat < (2 : ℚ) ^ (-1075 : Int) →
      Completes .normround s (fun t => t.out.r.toNat = if s.inp.sIn then 2 ^ 63 else 0))

/-- The ranges of the rounding step (R84, R86, R87, R15, marked there as inferences): the shift is 52 … 106, the kept
bits before rounding are in [2^52, 2^53) or, in the subnormal range, below 2^52, and COMPOSE is given an exponent in
−1023 … 1024 and a mantissa of at most 2^53. -/
def Obligations.RoundingStaysInRange : Prop :=
  ∀ (rc : Config.RoundCarry) (we : Int) (p : Nat) (g : Rounding), 0 < p → p < 2 ^ 106 →
    (normalised we p).we < 1024 → roundingOf (normalised we p) = some g →
    let pn := (normalised we p).pn
    52 ≤ g.shift ∧ g.shift ≤ 106 ∧
    ((normalised we p).we ≤ -1023 → g.we = -1023 ∧ pn >>> g.shift < 2 ^ 52) ∧
    (-1023 < (normalised we p).we → g.we = (normalised we p).we ∧ 2 ^ 52 ≤ pn >>> g.shift ∧ pn >>> g.shift < 2 ^ 53) ∧
    roundedKept pn g.shift ≤ 2 ^ 53 ∧
    -1023 ≤ carriedExponent rc g.we (roundedKept pn g.shift) ∧
    carriedExponent rc g.we (roundedKept pn g.shift) ≤ 1024

/-- R85: above the midpoint up, below it truncate, a tie to the even neighbour. -/
def Obligations.KeptRoundsToNearestEven : Prop :=
  ∀ pn shift : Nat, 1 ≤ shift →
    (pn % 2 ^ shift > 2 ^ (shift - 1) → roundedKept pn shift = pn / 2 ^ shift + 1) ∧
    (pn % 2 ^ shift = 2 ^ (shift - 1) → roundedKept pn shift % 2 = 0) ∧
    (pn % 2 ^ shift = 2 ^ (shift - 1) →
      roundedKept pn shift = pn / 2 ^ shift ∨ roundedKept pn shift = pn / 2 ^ shift + 1) ∧
    (pn % 2 ^ shift < 2 ^ (shift - 1) → roundedKept pn shift = pn / 2 ^ shift)

/-- The two settings of `ROUND_CARRY` (R86, decision D5): they differ exactly when rounding carries out of the kept
field. On a carry `propagate` composes the exponent one higher and `drop` the unchanged one, both with mantissa 0: in the
normal range 1.0 · 2^(we+1) against 1.0 · 2^we, at the subnormal marker the smallest normal against the signed zero. A
carry at exponent 1023 is the infinity, with no test against 1024 made. -/
def Obligations.RoundCarrySettingsDifferOnCarry : Prop :=
  ∀ (sign : Bool) (we : Int) (p : Nat) (g : Rounding), 0 < p → p < 2 ^ 106 →
    (normalised we p).we < 1024 → roundingOf (normalised we p) = some g →
    let kept := roundedKept (normalised we p).pn g.shift
    let carry := kept = 2 ^ 53 ∨ (g.we = -1023 ∧ kept = 2 ^ 52)
    (normRounded .propagate sign we p = normRounded .drop sign we p ↔ ¬ carry) ∧
    (carry → normRounded .propagate sign we p = composed sign (g.we + 1) 0 ∧
      normRounded .drop sign we p = composed sign g.we 0) ∧
    (carry → g.we = 1023 → normRounded .propagate sign we p = infinityOf sign)

/-- The closed form of R88 (which the rule marks as its own inference) is NORMROUND, in both `ROUND_CARRY` settings, for
every integer exponent as a function and at the ports. -/
def Obligations.ClosedFormIsNormround : Prop :=
  (∀ (rc : Config.RoundCarry) (sign : Bool) (we : Int) (p : Nat), 0 < p → p < 2 ^ 106 →
    normRounded rc sign we p = closedForm rc sign we p) ∧
  (∀ s : State, s.inp.pIn ≠ 0 → Completes .normround s (fun t =>
    t.out.r = closedForm s.params.roundCarry s.inp.sIn s.inp.eIn.toInt s.inp.pIn.toNat))

/-- With `ROUND_CARRY = propagate`, NORMROUND is the pattern of the sign whose magnitude is P · 2^(we − 104) rounded to
nearest, ties to even, on the binary64 grid, infinity at 2^1024 (R89; the grid is the spec's general-knowledge passage
G2, notes/assumptions/17.md). -/
def Obligations.NormroundIsRoundToNearestEven : Prop :=
  (∀ (sign : Bool) (we : Int) (p : Nat), 0 < p → p < 2 ^ 106 →
    signBit (normRounded .propagate sign we p) = sign ∧
    RoundsToNearestEven (inputMagnitude we p) (gridIndex (normRounded .propagate sign we p))) ∧
  (∀ s : State, s.params.roundCarry = .propagate → s.inp.pIn ≠ 0 → Completes .normround s (fun t =>
    signBit t.out.r = s.inp.sIn ∧
    RoundsToNearestEven (inputMagnitude s.inp.eIn.toInt s.inp.pIn.toNat) (gridIndex t.out.r)))

/-- The grid is the binary64 values (R35): a pattern's magnitude is that of its index, so a rounded index is a rounded
value; at most one index is the rounding of a number. It rests on the model's reading of R89 (notes/assumptions/17.md). -/
def Obligations.RoundingOnTheGridIsUnique : Prop :=
  (∀ a : FloatValue, isNaN a = false → isInfinity a = false → gridMagnitude (gridIndex a) = magnitude a) ∧
  (∀ m n : Nat, m ≤ infinityIndex → n ≤ infinityIndex → (gridMagnitude m < gridMagnitude n ↔ m < n)) ∧
  (∀ (x : ℚ) (m n : Nat), RoundsToNearestEven x m → RoundsToNearestEven x n → m = n)

/-- `W_PROD` is unobservable (R117 marks it as an inference): normalising in any register of 106 bits or more gives the
same exponent, deferred shift and product. -/
def Obligations.ProductRegisterWidthIsUnobservable : Prop :=
  ∀ (w : Nat) (we : Int) (p : Nat), 106 ≤ w → 0 < p → p < 2 ^ 106 → normalisedAt w we p = normalised we p

/-! ### 43_fp_multiplier.md: MUL -/

/-- R102: a NaN operand ends MUL with what NANPROP returns, a quiet NaN. -/
def Obligations.MulPropagatesNaNs : Prop :=
  ∀ s : State, isNaN s.inp.a = true ∨ isNaN s.inp.b = true →
    Completes .mul s (fun t =>
      isQuietNaN t.out.r = true ∧
      Completes .nanprop s (fun u => u.out.hit = true ∧ u.out.r = t.out.r))

/-- The NaN policy as a decision table for MUL (R69, marked as an inference): signaling over quiet, ties to the first
operand, the quiet bit set. -/
def Obligations.MulNaNDecisionTable : Prop :=
  ∀ s : State,
    (isSignalingNaN s.inp.a = true → Completes .mul s (fun t => t.out.r = s.inp.a ||| 0x0008000000000000#64)) ∧
    (isQuietNaN s.inp.a = true → isSignalingNaN s.inp.b = true →
      Completes .mul s (fun t => t.out.r = s.inp.b ||| 0x0008000000000000#64)) ∧
    (isQuietNaN s.inp.a = true → isSignalingNaN s.inp.b = false → Completes .mul s (fun t => t.out.r = s.inp.a)) ∧
    (isNaN s.inp.a = false → isNaN s.inp.b = true →
      Completes .mul s (fun t => t.out.r = s.inp.b ||| 0x0008000000000000#64))

/-- Operand order matters only between two NaNs of the same kind, and there exactly when their quieted patterns differ;
on non-NaN operands, on exactly one NaN, and on a signaling with a quiet one MUL is commutative (R69, R114 and R145;
R69's table and the non-NaN half of R114 are the spec's inferences). -/
def Obligations.MulOrderMattersOnlyForNaNs : Prop :=
  ∀ (p : Config.Params) (a b : FloatValue),
    (isNaN a = false → isNaN b = false → product p a b = product p b a) ∧
    (isNaN a = true → isNaN b = false → product p a b = product p b a) ∧
    (isSignalingNaN a = true → isQuietNaN b = true → product p a b = product p b a) ∧
    (isNaN a = true → isNaN b = true → isQuietNaN a = isQuietNaN b →
      (product p a b = product p b a ↔ quieted a = quieted b))

/-- R104: an infinite operand with a zero gives `CANONICAL_NAN` whatever the signs, otherwise the infinity of the
exclusive-or sign. -/
def Obligations.MulOfInfinities : Prop :=
  ∀ s : State, isNaN s.inp.a = false → isNaN s.inp.b = false →
    (isInfinity s.inp.a = true ∨ isInfinity s.inp.b = true) →
    (isZero s.inp.a = true ∨ isZero s.inp.b = true → Completes .mul s (fun t => t.out.r = canonicalNaN s.params)) ∧
    (isZero s.inp.a = false → isZero s.inp.b = false → Completes .mul s (fun t =>
      t.out.r.toNat = (if s.inp.a.getLsbD 63 = s.inp.b.getLsbD 63 then 0 else 2 ^ 63) + 0x7FF0000000000000))

/-- A zero operand with a finite one gives the zero of the exclusive-or sign. The property is the source's; where MUL
tests for it is decision D11 (R105, notes/assumptions/15.md). -/
def Obligations.MulOfZeros : Prop :=
  ∀ s : State, isNaN s.inp.a = false → isNaN s.inp.b = false → isInfinity s.inp.a = false →
    isInfinity s.inp.b = false → (isZero s.inp.a = true ∨ isZero s.inp.b = true) → Completes .mul s (fun t =>
      t.out.r.toNat = if s.inp.a.getLsbD 63 = s.inp.b.getLsbD 63 then 0 else 2 ^ 63)

/-- For every non-NaN pair but zero times infinity the result is no NaN and its sign is the exclusive-or of the operand
signs. The source says so of finite non-zero operands (R112); the widening is R112's inference, and that the result is
no NaN is R114's. -/
def Obligations.MulSignIsExclusiveOr : Prop :=
  ∀ s : State, isNaN s.inp.a = false → isNaN s.inp.b = false →
    ¬ (isInfinity s.inp.a = true ∧ isZero s.inp.b = true) → ¬ (isZero s.inp.a = true ∧ isInfinity s.inp.b = true) →
    Completes .mul s (fun t =>
      isNaN t.out.r = false ∧ t.out.r.getLsbD 63 = Bool.xor (s.inp.a.getLsbD 63) (s.inp.b.getLsbD 63))

/-- MUL is a NaN exactly when an operand is one or the pair is zero times infinity, and every NaN it gives is quiet
(R114, marked as an inference). -/
def Obligations.MulNaNExactlyWhen : Prop :=
  ∀ s : State, Completes .mul s (fun t =>
    (isNaN t.out.r = true ↔ isNaN s.inp.a = true ∨ isNaN s.inp.b = true ∨
      (isZero s.inp.a = true ∧ isInfinity s.inp.b = true) ∨ (isInfinity s.inp.a = true ∧ isZero s.inp.b = true)) ∧
    (isNaN t.out.r = true → isQuietNaN t.out.r = true))

/-- Multiplying by 1.0 leaves every non-NaN pattern as it is and quiets a NaN, with every parameter (R115, marked as an
inference). -/
def Obligations.MulByOneIsIdentity : Prop :=
  ∀ s : State, s.inp.b = 0x3FF0000000000000#64 →
    (isNaN s.inp.a = false → Completes .mul s (fun t => t.out.r = s.inp.a)) ∧
    (isNaN s.inp.a = true → Completes .mul s (fun t => t.out.r = s.inp.a ||| 0x0008000000000000#64))

/-- MUL of finite non-zero operands is NORMROUND, through its ports, of the exclusive-or sign, the sum of the effective
exponents (R36) and the exact product of the full mantissas (R106 to R109): the 13 and 106 bits of those ports hold
them (decision D3). -/
def Obligations.MulIsNormroundOfExactProduct : Prop :=
  ∀ s : State, isFiniteNonzero s.inp.a = true → isFiniteNonzero s.inp.b = true →
    Completes .mul s (fun t =>
      Completes .normround (s.withInputs { s.inp with
          sIn := Bool.xor (s.inp.a.getLsbD 63) (s.inp.b.getLsbD 63)
          eIn := BitVec.ofInt 13 (effectiveExponent s.inp.a + effectiveExponent s.inp.b)
          pIn := BitVec.ofNat 106 (significand s.inp.a * significand s.inp.b) })
        (fun u => u.out.r = t.out.r))

/-- The temporaries of MUL stay in the ranges of R15, R107, R108 and R110: nothing wraps and no product bit is lost (the
derived ranges are the spec's inferences). -/
def Obligations.MulTemporariesStayInRange : Prop :=
  ∀ a b : FloatValue, isFiniteNonzero a = true → isFiniteNonzero b = true →
    -2044 ≤ workingExponent a b ∧ workingExponent a b ≤ 2046 ∧
    workingExponent a b = effectiveExponent a + effectiveExponent b ∧
    1 ≤ exactProduct a b ∧ exactProduct a b ≤ (2 ^ 53 - 1) ^ 2 ∧
    exactProduct a b = significand a * significand b ∧
    -2148 ≤ (normalised (workingExponent a b) (exactProduct a b)).we ∧
    (normalised (workingExponent a b) (exactProduct a b)).we ≤ 2047

/-- The correctness property (R111; IEEE 754's product is the spec's general-knowledge passage G2,
notes/assumptions/17.md): with `ROUND_CARRY = propagate`, for non-NaN operands neither of which is infinite, MUL is the
pattern of the exclusive-or sign whose magnitude is the exact product of the operands' magnitudes rounded to nearest,
ties to even. Infinities are `MulOfInfinities`. -/
def Obligations.MulIsCorrectlyRoundedProduct : Prop :=
  ∀ s : State, s.params.roundCarry = .propagate → isNaN s.inp.a = false → isNaN s.inp.b = false →
    isInfinity s.inp.a = false → isInfinity s.inp.b = false → Completes .mul s (fun t =>
      signBit t.out.r = Bool.xor (signBit s.inp.a) (signBit s.inp.b) ∧
      RoundsToNearestEven (magnitude s.inp.a * magnitude s.inp.b) (gridIndex t.out.r))

/-! ### The outputs at every instant (10_state.md R19) -/

/-- At every instant the outputs are the function of the current inputs (R19, decision D1): when the caller drives all
ports, presents a call or a table word, and after a reset, the driven outputs are those of the operation that then
stands on the input ports, and a step on inputs that stand changes no driven output. How a caller presents, and the port
values of a reset, are the model's choices (notes/assumptions/2.md, 3.md, 9.md, 18.md). -/
def Obligations.OutputsFollowTheInputs : Prop :=
  (∀ (s : State) (x : Inputs), (s.withInputs x).Settled ∧ (s.withInputs x).inp = x) ∧
  (∀ (s : State) (c : Call), (s.present c).Settled) ∧
  (∀ (s : State) (nbits w : Nat), (s.withFetchWord nbits w).Settled) ∧
  (∀ s : State, s.afterReset.Settled) ∧
  (∀ (s t : State) (i : Instr), s.Settled → decode s.inp.op = .ok i → step s = .next t →
    visible i t.out = visible i s.out)
end

