-- ==== Sys2Proof/Laws/Fields.lean ====
section
/-! SUPPORT. The fields of a pattern as numbers, and what the composer puts in them (30_encoding.md R30, 40 R52). -/

namespace Sys2Proof.Machine

theorem signBit_eq (a : FloatValue) : signBit a = decide (2 ^ 63 ≤ a.toNat) := by
  have h : a.getLsbD 63 = a.msb := by rw [BitVec.msb_eq_getLsbD_last]
  rw [signBit, h, BitVec.msb_eq_decide]

theorem expField_toNat (a : FloatValue) : (expField a).toNat = a.toNat / 2 ^ 52 % 2 ^ 11 := by
  simp [expField, BitVec.extractLsb'_toNat, Nat.shiftRight_eq_div_pow]

theorem mantField_toNat (a : FloatValue) : (mantField a).toNat = a.toNat % 2 ^ 52 := by
  simp [mantField, BitVec.extractLsb'_toNat]

/-- A pattern is its three fields. -/
theorem toNat_eq_fields (a : FloatValue) :
    a.toNat = (if signBit a then 2 ^ 63 else 0) + (expField a).toNat * 2 ^ 52 + (mantField a).toNat := by
  have := a.isLt
  rw [signBit_eq, expField_toNat, mantField_toNat]
  split <;> simp_all <;> omega

theorem ext_fields {a b : FloatValue} (hs : signBit a = signBit b)
    (he : (expField a).toNat = (expField b).toNat) (hm : (mantField a).toNat = (mantField b).toNat) : a = b := by
  apply BitVec.eq_of_toNat_eq
  rw [toNat_eq_fields a, toNat_eq_fields b, hs, he, hm]

/-- R52 as a number. -/
theorem composed_toNat (sign : Bool) (e : Int) (m : Nat) :
    (composed sign e m).toNat =
      (if sign then 2 ^ 63 else 0) + ((e + 1023) % 2 ^ 11).toNat * 2 ^ 52 + m % 2 ^ 52 := by
  have h11 : (BitVec.ofInt 11 (e + 1023)).toNat = ((e + 1023) % 2 ^ 11).toNat := by
    simp [BitVec.toNat_ofInt]
  have hlt := (BitVec.ofInt 11 (e + 1023)).isLt
  have hm : m % 2 ^ 52 < 2 ^ 52 := Nat.mod_lt _ (by decide)
  rw [composed, BitVec.toNat_append, BitVec.toNat_append, h11, BitVec.toNat_ofNat,
    ← Nat.shiftLeft_add_eq_or_of_lt hm, BitVec.toNat_ofBool]
  rw [← Nat.shiftLeft_add_eq_or_of_lt (by rw [← h11]; exact hlt)]
  cases sign <;> simp [Nat.shiftLeft_eq]; omega

@[simp] theorem signBit_composed (sign : Bool) (e : Int) (m : Nat) : signBit (composed sign e m) = sign := by
  have h : ((e + 1023) % 2 ^ 11).toNat < 2 ^ 11 := by omega
  have hm : m % 2 ^ 52 < 2 ^ 52 := Nat.mod_lt _ (by decide)
  rw [signBit_eq, composed_toNat]
  cases sign <;> simp <;> omega

@[simp] theorem expField_composed (sign : Bool) (e : Int) (m : Nat) :
    (expField (composed sign e m)).toNat = ((e + 1023) % 2 ^ 11).toNat := by
  have h : ((e + 1023) % 2 ^ 11).toNat < 2 ^ 11 := by omega
  have hm : m % 2 ^ 52 < 2 ^ 52 := Nat.mod_lt _ (by decide)
  rw [expField_toNat, composed_toNat]
  cases sign <;> simp only [if_true, Bool.false_eq_true, if_false] <;> omega

@[simp] theorem mantField_composed (sign : Bool) (e : Int) (m : Nat) :
    (mantField (composed sign e m)).toNat = m % 2 ^ 52 := by
  rw [mantField_toNat, composed_toNat]
  cases sign <;> simp only [if_true, Bool.false_eq_true, if_false] <;> omega

/-- The 63 magnitude bits of a composed pattern. -/
theorem composed_mod (sign : Bool) (e : Int) (m : Nat) :
    (composed sign e m).toNat % 2 ^ 63 = ((e + 1023) % 2 ^ 11).toNat * 2 ^ 52 + m % 2 ^ 52 := by
  have h : ((e + 1023) % 2 ^ 11).toNat < 2 ^ 11 := by omega
  have hm : m % 2 ^ 52 < 2 ^ 52 := Nat.mod_lt _ (by decide)
  rw [composed_toNat]
  cases sign <;> simp only [if_true, Bool.false_eq_true, if_false] <;> omega

/-- `COMPOSE(sign, 1024, m)` with the mantissa's low 52 bits clear is the infinity (R52, R71, R86). -/
theorem composed_infinity (sign : Bool) (m : Nat) (h : m % 2 ^ 52 = 0) : composed sign 1024 m = infinityOf sign := by
  apply BitVec.eq_of_toNat_eq
  rw [composed_toNat, h]
  cases sign <;> decide

theorem infinityOf_toNat (sign : Bool) :
    (infinityOf sign).toNat = (if sign then 2 ^ 63 else 0) + 0x7FF0000000000000 := by
  cases sign <;> decide

theorem signedZero_toNat (sign : Bool) : (signedZero sign).toNat = if sign then 2 ^ 63 else 0 := by
  cases sign <;> decide

theorem canonicalNaN_toNat (p : Config.Params) : (canonicalNaN p).toNat =
    (if p.canonicalNaN.sign then 2 ^ 63 else 0) + 0x7FF8000000000000 + p.canonicalNaN.payload.toNat := by
  have hp := p.canonicalNaN.payload.isLt
  rw [canonicalNaN, BitVec.toNat_append, BitVec.toNat_append, BitVec.toNat_append,
    ← Nat.shiftLeft_add_eq_or_of_lt hp, BitVec.toNat_ofBool]
  cases p.canonicalNaN.sign <;> simp

/-- An exponent of a decomposed pattern survives the 12 bits of `e_out` (R41, R51). -/
@[simp] theorem exponentOut_toInt (a : FloatValue) :
    (exponentOut (decomposed a).exponent).toInt = (decomposed a).exponent := by
  have := (expField a).isLt
  rw [exponentOut, BitVec.toInt_ofInt]
  exact Int.bmod_eq_of_le (by simp only [decomposed]; omega) (by simp only [decomposed]; omega)

/-! ### Predicates on the fields -/

/-- The bits of the class vector are the predicates (R67). -/
theorem classVector_bits (a : FloatValue) :
    (classVector a).getLsbD 0 = isZero a ∧ (classVector a).getLsbD 1 = isSubnormal a ∧
    (classVector a).getLsbD 2 = isNormal a ∧ (classVector a).getLsbD 3 = isInfinity a ∧
    (classVector a).getLsbD 4 = isNaN a ∧ (classVector a).getLsbD 5 = isQuietNaN a ∧
    (classVector a).getLsbD 6 = isSignalingNaN a := by
  unfold classVector
  generalize isZero a = c0, isSubnormal a = c1, isNormal a = c2, isInfinity a = c3, isNaN a = c4,
    isQuietNaN a = c5, isSignalingNaN a = c6
  revert c0 c1 c2 c3 c4 c5 c6
  decide

theorem isZero_iff (a : FloatValue) : isZero a = true ↔ (expField a).toNat = 0 ∧ (mantField a).toNat = 0 := by
  simp [isZero, ← BitVec.toNat_inj]

theorem isSubnormal_iff (a : FloatValue) :
    isSubnormal a = true ↔ (expField a).toNat = 0 ∧ (mantField a).toNat ≠ 0 := by
  simp [isSubnormal, ← BitVec.toNat_inj]

theorem isNormal_iff (a : FloatValue) :
    isNormal a = true ↔ 1 ≤ (expField a).toNat ∧ (expField a).toNat ≤ 2046 := by
  simp [isNormal]

theorem isInfinity_iff (a : FloatValue) :
    isInfinity a = true ↔ (expField a).toNat = 2047 ∧ (mantField a).toNat = 0 := by
  simp [isInfinity, ← BitVec.toNat_inj]

theorem isNaN_iff (a : FloatValue) : isNaN a = true ↔ (expField a).toNat = 2047 ∧ (mantField a).toNat ≠ 0 := by
  simp [isNaN, ← BitVec.toNat_inj]

theorem quietBit_eq (a : FloatValue) : quietBit a = decide (2 ^ 51 ≤ a.toNat % 2 ^ 52) := by
  rw [quietBit, ← BitVec.testBit_toNat, Nat.testBit_eq_decide_div_mod_eq]
  congr 1; apply propext; omega

end Sys2Proof.Machine
end

