-- ==== Sys2Proof/Laws/State.lean ====
section
/-! SUPPORT. One lemma per field per update of `State`, each true by unfolding the update once. -/

namespace Sys2Proof.Machine

@[simp] theorem State.drive_params (s : State) (o : Outputs) : (s.drive o).params = s.params := rfl
@[simp] theorem State.drive_inp (s : State) (o : Outputs) : (s.drive o).inp = s.inp := rfl
@[simp] theorem State.drive_out (s : State) (o : Outputs) : (s.drive o).out = o := rfl
@[simp] theorem State.drive_draws (s : State) (o : Outputs) : (s.drive o).draws = s.draws + 1 := rfl

@[simp] theorem State.driveR_params (s : State) (v : FloatValue) : (s.driveR v).params = s.params := rfl
@[simp] theorem State.driveR_inp (s : State) (v : FloatValue) : (s.driveR v).inp = s.inp := rfl
@[simp] theorem State.driveR_out_r (s : State) (v : FloatValue) : (s.driveR v).out.r = v := rfl
@[simp] theorem State.driveR_draws (s : State) (v : FloatValue) : (s.driveR v).draws = s.draws + 1 := rfl

@[simp] theorem State.driveFlag_params (s : State) (v : Bool) : (s.driveFlag v).params = s.params := rfl
@[simp] theorem State.driveFlag_inp (s : State) (v : Bool) : (s.driveFlag v).inp = s.inp := rfl
@[simp] theorem State.driveFlag_out_flag (s : State) (v : Bool) : (s.driveFlag v).out.flag = v := rfl
@[simp] theorem State.driveFlag_draws (s : State) (v : Bool) : (s.driveFlag v).draws = s.draws + 1 := rfl

@[simp] theorem State.settle_params (s : State) : s.settle.params = s.params := rfl
@[simp] theorem State.settle_inp (s : State) : s.settle.inp = s.inp := rfl
@[simp] theorem State.settle_out (s : State) : s.settle.out = s.outputsNow := rfl
@[simp] theorem State.settle_draws (s : State) : s.settle.draws = s.draws + 1 := rfl

@[simp] theorem State.withInputs_params (s : State) (x : Inputs) : (s.withInputs x).params = s.params := rfl
@[simp] theorem State.withInputs_inp (s : State) (x : Inputs) : (s.withInputs x).inp = x := rfl
@[simp] theorem State.withInputs_out (s : State) (x : Inputs) :
    (s.withInputs x).out = State.outputsNow { s with inp := x } := rfl
@[simp] theorem State.withInputs_draws (s : State) (x : Inputs) : (s.withInputs x).draws = s.draws + 1 := rfl

@[simp] theorem State.present_params (s : State) (c : Call) : (s.present c).params = s.params := rfl
@[simp] theorem State.present_inp (s : State) (c : Call) : (s.present c).inp = encodeCall c s.inp := rfl
@[simp] theorem State.present_out (s : State) (c : Call) :
    (s.present c).out = State.outputsNow { s with inp := encodeCall c s.inp } := rfl
@[simp] theorem State.present_draws (s : State) (c : Call) : (s.present c).draws = s.draws + 1 := rfl

@[simp] theorem State.afterReset_params (s : State) : s.afterReset.params = s.params := rfl

@[simp] theorem State.withFetchWord_params (s : State) (n w : Nat) : (s.withFetchWord n w).params = s.params := rfl
@[simp] theorem State.withFetchWord_op (s : State) (n w : Nat) :
    (s.withFetchWord n w).inp.op = selectorOfTableWord n w := rfl
@[simp] theorem State.withFetchWord_inp (s : State) (n w : Nat) :
    (s.withFetchWord n w).inp = { s.inp with op := selectorOfTableWord n w } := rfl
@[simp] theorem State.withFetchWord_draws (s : State) (n w : Nat) : (s.withFetchWord n w).draws = s.draws + 1 := rfl

end Sys2Proof.Machine
end

