-- ==== Sys2Proof/Laws/Exec.lean ====
section
/-! SUPPORT. What `exec` and `step` can do, said once: every operation answers a next state that is the old one with
its outputs driven (30_encoding.md R41, 60_exceptions.md R130). -/

namespace Sys2Proof.Machine

theorem drive_onlyOutputsChanged (s : State) (o : Outputs) : s.OnlyOutputsChanged (s.drive o) := ⟨rfl, rfl, rfl⟩

/-- `Completes` from the driven outputs. -/
theorem completes_of_drive {i : Instr} {s : State} {post : State → Prop} (o : Outputs)
    (h : exec i s = .next (s.drive o)) (hp : post (s.drive o)) : Completes i s post :=
  ⟨_, h, drive_onlyOutputsChanged s o, hp⟩

/-- Every operation drives some outputs and does nothing else. -/
theorem exec_drives (i : Instr) (s : State) : ∃ o, exec i s = .next (s.drive o) := by
  cases i
  case nanprop =>
    cases h : nanPropagated s.inp.a s.inp.b <;> simp only [exec, execNanprop, h] <;> exact ⟨_, rfl⟩
  all_goals exact ⟨_, rfl⟩

/-- What the operation on the input ports answers is the settled state: a step and a change of the inputs drive the
same function of the inputs (R19). -/
theorem exec_eq_settle {i : Instr} {s : State} (h : decode s.inp.op = .ok i) : exec i s = .next s.settle := by
  obtain ⟨o, ho⟩ := exec_drives i s
  have hout : s.outputsNow = o := by simp only [State.outputsNow, h, ho, State.drive_out]
  rw [ho, State.settle, hout]

/-- Everything a step can answer. -/
theorem step_cases (s : State) :
    (∃ i, decode s.inp.op = .ok i ∧ step s = .next s.settle) ∨
    (∃ op, decode s.inp.op = .error (.reservedSelector op) ∧ step s = .refused (.reservedSelector op)) := by
  cases h : decode s.inp.op with
  | ok i => exact .inl ⟨i, rfl, by simp only [step, h, exec_eq_settle h]⟩
  | error e => cases e with | reservedSelector op => exact .inr ⟨op, rfl, by simp only [step, h]⟩

theorem execMul_eq (s : State) : exec .mul s = .next (s.driveR (product s.params s.inp.a s.inp.b)) := rfl

theorem execNormround_eq (s : State) : exec .normround s =
    .next (s.driveR (normRounded s.params.roundCarry s.inp.sIn s.inp.eIn.toInt s.inp.pIn.toNat)) := rfl

/-- The driven outputs of an operation are what the call on its ports returns: the two views of R40. -/
theorem exec_visible {s t : State} {c : Call} (h : decodeCall s.inp = .ok c) (ht : exec c.instr s = .next t) :
    callResult s.params c = some (visible c.instr t.out) := by
  unfold decodeCall at h
  split at h <;> cases h
  case h_2 =>
    cases ht
    simp [callResult, visible, Call.instr]
  case h_5 =>
    simp only [Call.instr, exec, execNanprop] at ht
    split at ht <;> rename_i hn <;> cases ht <;> simp [callResult, visible, Call.instr, hn]
  case h_8 =>
    cases ht
    simp [callResult, visible, Call.instr, exponentIn, productIn, s.inp.pIn.isLt]
  all_goals cases ht; rfl

end Sys2Proof.Machine
end

