-- ==== Sys2Proof/Laws/Normround.lean ====
section
/-! SUPPORT. What the parts of NORMROUND do (42_normalizer_rounder.md R82, R84, R85), each said once. `Nat.log2 p` is
the position of the product's leading bit. -/

namespace Sys2Proof.Machine

/-! ### The leading bit -/

theorem log2_le_105 {p : Nat} (h0 : 0 < p) (h : p < 2 ^ 106) : Nat.log2 p ≤ 105 := by
  have := (Nat.log2_lt (by omega)).2 h
  omega

theorem two_pow_log2_le {p : Nat} (h0 : 0 < p) : 2 ^ Nat.log2 p ≤ p := Nat.log2_self_le (by omega)

theorem lt_two_pow_log2 (p : Nat) : p < 2 ^ (Nat.log2 p + 1) := Nat.lt_log2_self

theorem clz_106 {p : Nat} (h0 : 0 < p) : clz 106 p = 106 - (Nat.log2 p + 1) := by
  simp [clz, Nat.pos_iff_ne_zero.1 h0]

theorem testBit_105 {p : Nat} (h0 : 0 < p) (h : p < 2 ^ 106) : p.testBit 105 = decide (Nat.log2 p = 105) := by
  have hl := log2_le_105 h0 h
  rw [Nat.testBit_eq_decide_div_mod_eq]
  congr 1
  apply propext
  constructor
  · intro hb
    have : 105 ≤ Nat.log2 p := (Nat.le_log2 (by omega)).2 (by omega)
    omega
  · intro hb
    have := two_pow_log2_le h0
    rw [hb] at this
    omega

/-! ### R82 -/

/-- The deferred shift is 1 exactly when the leading bit is at 105. -/
theorem normalised_pre {p : Nat} (we : Int) (h0 : 0 < p) (h : p < 2 ^ 106) :
    (normalised we p).pre = if Nat.log2 p = 105 then 1 else 0 := by
  rw [normalised, normalisedAt, testBit_105 h0 h]
  by_cases hb : Nat.log2 p = 105 <;> simp [hb]

/-- The normalised exponent is the exponent of the product's leading bit, in both branches. -/
theorem normalised_we {p : Nat} (we : Int) (h0 : 0 < p) (h : p < 2 ^ 106) :
    (normalised we p).we = we + Nat.log2 p - 104 := by
  have hl := log2_le_105 h0 h
  rw [normalised, normalisedAt, testBit_105 h0 h]
  by_cases hb : Nat.log2 p = 105
  · simp [hb]; omega
  · simp [hb, leftAmount, clz_106 h0]; omega

/-- The normalised product is the product times a power of two. -/
theorem normalised_pn {p : Nat} (we : Int) (h0 : 0 < p) (h : p < 2 ^ 106) :
    (normalised we p).pn = p * 2 ^ (104 + (normalised we p).pre - Nat.log2 p) := by
  have hl := log2_le_105 h0 h
  rw [normalised_pre we h0 h, normalised, normalisedAt, testBit_105 h0 h]
  by_cases hb : Nat.log2 p = 105
  · simp [hb]
  · have hs : leftAmount 106 p = 104 - Nat.log2 p := by rw [leftAmount, clz_106 h0]; omega
    simp [hb, hs, Nat.shiftLeft_eq]

theorem normalised_pn_bounds {p : Nat} (we : Int) (h0 : 0 < p) (h : p < 2 ^ 106) :
    2 ^ (104 + (normalised we p).pre) ≤ (normalised we p).pn ∧
      (normalised we p).pn < 2 ^ (105 + (normalised we p).pre) := by
  have hl := log2_le_105 h0 h
  have hpre : Nat.log2 p ≤ 104 + (normalised we p).pre := by
    rw [normalised_pre we h0 h]; split <;> omega
  rw [normalised_pn we h0 h]
  obtain ⟨d, hd⟩ := Nat.exists_eq_add_of_le hpre
  have e1 : 104 + (normalised we p).pre - Nat.log2 p = d := by omega
  have e2 : 105 + (normalised we p).pre = Nat.log2 p + 1 + d := by omega
  rw [e1, e2, hd, Nat.pow_add, Nat.pow_add (m := Nat.log2 p + 1)]
  exact ⟨Nat.mul_le_mul_right _ (two_pow_log2_le h0),
    Nat.mul_lt_mul_of_pos_right (lt_two_pow_log2 p) (by positivity)⟩

/-! ### R84 -/

/-- Everything R84 can answer: underflow, the subnormal range, the normal range. -/
theorem roundingOf_cases (n : Normalised) :
    (n.we < -1075 ∧ roundingOf n = none) ∨
    (-1075 ≤ n.we ∧ n.we ≤ -1023 ∧
      roundingOf n = some { shift := 52 + n.pre + (-1022 - n.we).toNat, we := -1023 }) ∨
    (-1023 < n.we ∧ roundingOf n = some { shift := 52 + n.pre, we := n.we }) := by
  unfold roundingOf
  by_cases h1 : n.we ≤ -1023
  · by_cases h2 : n.we < -1075
    · exact .inl ⟨h2, by simp [h1, h2]⟩
    · exact .inr (.inl ⟨by omega, h1, by simp [h1, h2]⟩)
  · exact .inr (.inr ⟨by omega, by simp [h1]⟩)

/-- The ranges R84 leaves: the shift, the clamped exponent, and the quotient before rounding, in the subnormal and in
the normal range. -/
theorem roundingOf_bounds {we : Int} {p : Nat} (h0 : 0 < p) (h : p < 2 ^ 106) {g : Rounding}
    (hg : roundingOf (normalised we p) = some g) :
    52 ≤ g.shift ∧ g.shift ≤ 106 ∧
    ((normalised we p).we ≤ -1023 → g.we = -1023 ∧ (normalised we p).pn / 2 ^ g.shift < 2 ^ 52 ∧
       (g.shift : Int) = 52 + (normalised we p).pre - 1022 - (normalised we p).we) ∧
    (-1023 < (normalised we p).we → g.we = (normalised we p).we ∧ 2 ^ 52 ≤ (normalised we p).pn / 2 ^ g.shift ∧
       (normalised we p).pn / 2 ^ g.shift < 2 ^ 53 ∧ g.shift = 52 + (normalised we p).pre) := by
  obtain ⟨b1, b2⟩ := normalised_pn_bounds we h0 h
  have hpre : (normalised we p).pre ≤ 1 := by rw [normalised_pre we h0 h]; split <;> omega
  generalize normalised we p = n at *
  rcases roundingOf_cases n with ⟨_, hr⟩ | ⟨c1, c2, hr⟩ | ⟨c, hr⟩
  · rw [hr] at hg; cases hg
  · rw [hr] at hg; cases hg
    refine ⟨by simp only; omega, by simp only; omega, fun _ => ⟨rfl, ?_, by simp only; omega⟩, fun hc => by omega⟩
    rw [Nat.div_lt_iff_lt_mul (by positivity), ← Nat.pow_add]
    exact lt_of_lt_of_le b2 (Nat.pow_le_pow_right (by decide) (by simp only; omega))
  · rw [hr] at hg; cases hg
    refine ⟨by simp only; omega, by simp only; omega, fun hc => by omega, fun _ => ⟨rfl, ?_, ?_, rfl⟩⟩
    · rw [Nat.le_div_iff_mul_le (by positivity), ← Nat.pow_add]
      exact le_trans (Nat.pow_le_pow_right (by decide) (by simp only; omega)) b1
    · rw [Nat.div_lt_iff_lt_mul (by positivity), ← Nat.pow_add]
      exact lt_of_lt_of_le b2 (Nat.pow_le_pow_right (by decide) (by simp only; omega))

/-! ### R85 -/

/-- Everything R85 can answer. -/
theorem roundedKept_cases (pn shift : Nat) :
    (roundedKept pn shift = pn / 2 ^ shift ∧ (pn % 2 ^ shift < 2 ^ (shift - 1) ∨
      (pn % 2 ^ shift = 2 ^ (shift - 1) ∧ pn / 2 ^ shift % 2 = 0))) ∨
    (roundedKept pn shift = pn / 2 ^ shift + 1 ∧ (2 ^ (shift - 1) < pn % 2 ^ shift ∨
      (pn % 2 ^ shift = 2 ^ (shift - 1) ∧ pn / 2 ^ shift % 2 = 1))) := by
  have hk : pn >>> shift = pn / 2 ^ shift := Nat.shiftRight_eq_div_pow ..
  simp only [roundedKept, hk]
  split <;> omega

theorem roundedKept_le (pn shift : Nat) : roundedKept pn shift ≤ pn / 2 ^ shift + 1 := by
  rcases roundedKept_cases pn shift with h | h <;> omega

theorem le_roundedKept (pn shift : Nat) : pn / 2 ^ shift ≤ roundedKept pn shift := by
  rcases roundedKept_cases pn shift with h | h <;> omega

/-- Moving the product and the shift up one bit changes nothing: the remainder keeps every bit (conflict C3). -/
theorem roundedKept_double (pn shift : Nat) (h : 1 ≤ shift) :
    roundedKept (pn * 2) (shift + 1) = roundedKept pn shift := by
  obtain ⟨k, rfl⟩ := Nat.exists_eq_add_of_le' h
  have hq : pn * 2 / 2 ^ (k + 1 + 1) = pn / 2 ^ (k + 1) := by
    rw [Nat.pow_succ (n := 2) (m := k + 1), Nat.mul_div_mul_right _ _ (by decide)]
  have hr : pn * 2 % 2 ^ (k + 1 + 1) = pn % 2 ^ (k + 1) * 2 := by
    rw [Nat.pow_succ (n := 2) (m := k + 1), Nat.mul_mod_mul_right]
  have hh : 2 ^ (k + 1 + 1 - 1) = 2 ^ (k + 1 - 1) * 2 := by simp [Nat.pow_succ]
  have hs : (pn * 2) >>> (k + 1 + 1) = pn >>> (k + 1) := by rw [Nat.shiftRight_eq_div_pow, Nat.shiftRight_eq_div_pow, hq]
  simp only [roundedKept, hr, hh, hs]
  have e1 : (pn % 2 ^ (k + 1) * 2 > 2 ^ (k + 1 - 1) * 2) ↔ (pn % 2 ^ (k + 1) > 2 ^ (k + 1 - 1)) := by omega
  have e2 : (pn % 2 ^ (k + 1) * 2 = 2 ^ (k + 1 - 1) * 2) ↔ (pn % 2 ^ (k + 1) = 2 ^ (k + 1 - 1)) := by omega
  simp only [e1, e2]

/-! ### R86 -/

theorem carriedExponent_propagate (we : Int) (kept : Nat) :
    carriedExponent .propagate we kept = if carriesOut we kept then we + 1 else we := by
  simp [carriedExponent]

theorem carriedExponent_drop (we : Int) (kept : Nat) : carriedExponent .drop we kept = we := by
  simp [carriedExponent]

/-! ### The whole operation -/

/-- Everything NORMROUND can answer for a non-zero product, by the exponent of the normalised product (R83, R84). -/
theorem normRounded_cases (rc : Config.RoundCarry) (sign : Bool) {we : Int} {p : Nat} (h0 : 0 < p) :
    (1024 ≤ (normalised we p).we ∧ normRounded rc sign we p = infinityOf sign) ∨
    ((normalised we p).we < -1075 ∧ normRounded rc sign we p = signedZero sign) ∨
    (∃ g, (normalised we p).we < 1024 ∧ roundingOf (normalised we p) = some g ∧
      normRounded rc sign we p = roundAndCompose rc sign (normalised we p).pn g) := by
  have hp : ¬ p = 0 := by omega
  rw [normRounded, if_neg hp, finishNormalised]
  by_cases h1 : 1024 ≤ (normalised we p).we
  · exact .inl ⟨h1, if_pos h1⟩
  · rw [if_neg h1]
    rcases roundingOf_cases (normalised we p) with ⟨h, hr⟩ | ⟨_, _, hr⟩ | ⟨_, hr⟩
    · exact .inr (.inl ⟨h, by rw [hr]⟩)
    · exact .inr (.inr ⟨_, by omega, hr, by rw [hr]⟩)
    · exact .inr (.inr ⟨_, by omega, hr, by rw [hr]⟩)

end Sys2Proof.Machine
end

