-- ==== Sys2Proof/Laws/Value.lean ====
section
/-! SUPPORT. The binary64 grid: its steps, its order, and when an index is the rounding of a number (30_encoding.md
R35, 42_normalizer_rounder.md R89). -/

namespace Sys2Proof.Machine

/-- The size of the step from index `n` to `n + 1`. -/
def gridStep (n : Nat) : ℚ := (2 : ℚ) ^ (max (((n / 2 ^ 52 : Nat) : Int) - 1075) (-1074))

theorem gridStep_pos (n : Nat) : 0 < gridStep n := by unfold gridStep; positivity

theorem index_div (e : Nat) {m : Nat} (hm : m < 2 ^ 52) : (e * 2 ^ 52 + m) / 2 ^ 52 = e := by omega
theorem index_mod (e : Nat) {m : Nat} (hm : m < 2 ^ 52) : (e * 2 ^ 52 + m) % 2 ^ 52 = m := by omega

/-- The magnitude at an index given by its two fields. -/
theorem gridMagnitude_fields (e : Nat) {m : Nat} (hm : m < 2 ^ 52) : gridMagnitude (e * 2 ^ 52 + m) =
    if e = 0 then (m : ℚ) * (2 : ℚ) ^ (-1074 : Int) else ((2 ^ 52 : ℚ) + m) * (2 : ℚ) ^ ((e : Int) - 1075) := by
  simp only [gridMagnitude, index_div e hm, index_mod e hm, Nat.cast_add, Nat.cast_pow, Nat.cast_ofNat]

theorem gridStep_fields (e : Nat) {m : Nat} (hm : m < 2 ^ 52) :
    gridStep (e * 2 ^ 52 + m) = if e = 0 then (2 : ℚ) ^ (-1074 : Int) else (2 : ℚ) ^ ((e : Int) - 1075) := by
  rw [gridStep, index_div e hm]
  split
  · subst e; rfl
  · rw [max_eq_left (by omega)]

/-- One index up is one step up, across the boundaries of binades as well. -/
theorem gridMagnitude_succ (n : Nat) : gridMagnitude (n + 1) = gridMagnitude n + gridStep n := by
  have hm : n % 2 ^ 52 < 2 ^ 52 := Nat.mod_lt _ (by decide)
  have hn : n = n / 2 ^ 52 * 2 ^ 52 + n % 2 ^ 52 := by omega
  generalize n / 2 ^ 52 = e at *
  generalize n % 2 ^ 52 = m at *
  rcases Nat.lt_or_ge (m + 1) (2 ^ 52) with hc | hc
  · have h1 : n + 1 = e * 2 ^ 52 + (m + 1) := by omega
    rw [h1, hn, gridMagnitude_fields e hm, gridStep_fields e hm, gridMagnitude_fields e hc]
    rw [Nat.cast_succ]
    split
    · exact add_one_mul _ _
    · generalize (2 : ℚ) ^ ((e : Int) - 1075) = u; ring
  · have h1 : n + 1 = (e + 1) * 2 ^ 52 + 0 := by omega
    have hm' : (m : ℚ) = 2 ^ 52 - 1 := by
      have : m = 2 ^ 52 - 1 := by omega
      rw [this]; norm_num
    rw [h1, hn, gridMagnitude_fields e hm, gridStep_fields e hm, gridMagnitude_fields (e + 1) (by decide),
      if_neg (by omega), hm']
    have h2 : (((e + 1 : Nat) : Int) - 1075) = ((e : Int) - 1075) + 1 := by push_cast; ring
    split
    · subst e
      have h3 : (((0 + 1 : Nat) : Int) - 1075) = -1074 := by norm_num
      rw [h3]; generalize (2 : ℚ) ^ (-1074 : Int) = u; push_cast; ring
    · rw [h2, zpow_add_one₀ (by norm_num)]; generalize (2 : ℚ) ^ ((e : Int) - 1075) = u; push_cast; ring

theorem gridMagnitude_strictMono : StrictMono gridMagnitude :=
  strictMono_nat_of_lt_succ fun n => by rw [gridMagnitude_succ]; linarith [gridStep_pos n]

/-- A number between two neighbouring indices rounds to the nearer of them, a tie to the even one. -/
theorem roundsToNearestEven_of_between {x : ℚ} {lo n : Nat} (hlo : lo + 1 ≤ infinityIndex)
    (h1 : gridMagnitude lo ≤ x) (h2 : x < gridMagnitude (lo + 1))
    (hn : (n = lo ∧ (x - gridMagnitude lo < gridMagnitude (lo + 1) - x ∨
        (x - gridMagnitude lo = gridMagnitude (lo + 1) - x ∧ lo % 2 = 0))) ∨
      (n = lo + 1 ∧ (gridMagnitude (lo + 1) - x < x - gridMagnitude lo ∨
        (x - gridMagnitude lo = gridMagnitude (lo + 1) - x ∧ lo % 2 = 1)))) :
    RoundsToNearestEven x n := by
  have dist_lo : |gridMagnitude lo - x| = x - gridMagnitude lo := by rw [abs_sub_comm, abs_of_nonneg (by linarith)]
  have dist_hi : |gridMagnitude (lo + 1) - x| = gridMagnitude (lo + 1) - x := abs_of_nonneg (by linarith)
  have below : ∀ m, m < lo → x - gridMagnitude lo < |gridMagnitude m - x| := fun m hm => by
    have := gridMagnitude_strictMono hm
    rw [abs_sub_comm, abs_of_nonneg (by linarith)]; linarith
  have above : ∀ m, lo + 1 < m → gridMagnitude (lo + 1) - x < |gridMagnitude m - x| := fun m hm => by
    have := gridMagnitude_strictMono hm
    rw [abs_of_nonneg (by linarith)]; linarith
  rcases hn with ⟨rfl, hn⟩ | ⟨rfl, hn⟩
  · refine ⟨by omega, fun m _ hne => ?_⟩
    rw [dist_lo]
    rcases Nat.lt_trichotomy m n with h | h | h
    · exact .inl (below m h)
    · exact absurd h hne
    · rcases Nat.lt_or_ge (n + 1) m with h' | h'
      · left; have := above m h'; rcases hn with hn | hn
        · linarith
        · linarith [hn.1]
      · obtain rfl : m = n + 1 := by omega
        rw [dist_hi]
        exact hn.imp id id
  · refine ⟨hlo, fun m _ hne => ?_⟩
    rw [dist_hi]
    rcases Nat.lt_trichotomy m (lo + 1) with h | h | h
    · rcases Nat.lt_or_ge m lo with h' | h'
      · left
        have := below m h'
        rcases hn with hn | hn
        · linarith
        · linarith [hn.1]
      · obtain rfl : m = lo := by omega
        rw [dist_lo]
        rcases hn with hn | hn
        · exact .inl hn
        · exact .inr ⟨hn.1.symm, by omega⟩
    · exact absurd h hne
    · exact .inl (above m h)

/-- R85 on the grid: where `lo` stands for the truncated quotient of `pn / 2^shift` units of size `u`, the index that
the rounded quotient stands for is the rounding of that number. -/
theorem roundsToNearestEven_kept {u x : ℚ} {pn shift lo : Nat} (hs : 1 ≤ shift) (hu : 0 < u)
    (hlo : lo + 1 ≤ infinityIndex) (hpar : lo % 2 = pn / 2 ^ shift % 2)
    (h1 : gridMagnitude lo = ((pn / 2 ^ shift : Nat) : ℚ) * u)
    (h2 : gridMagnitude (lo + 1) = (((pn / 2 ^ shift : Nat) : ℚ) + 1) * u)
    (hx : x = (pn : ℚ) / 2 ^ shift * u) :
    RoundsToNearestEven x (lo + (roundedKept pn shift - pn / 2 ^ shift)) := by
  obtain ⟨k, rfl⟩ := Nat.exists_eq_add_of_le' hs
  have hsplit : (pn : ℚ) = ((pn / 2 ^ (k + 1) : Nat) : ℚ) * 2 ^ (k + 1) + ((pn % 2 ^ (k + 1) : Nat) : ℚ) := by
    exact_mod_cast (Nat.div_add_mod' pn (2 ^ (k + 1))).symm
  have hrem : ((pn % 2 ^ (k + 1) : Nat) : ℚ) < 2 ^ (k + 1) := by
    exact_mod_cast Nat.mod_lt pn (by positivity)
  have hhalf : (2 : ℚ) ^ (k + 1) = 2 ^ k * 2 := pow_succ 2 k
  have hk : (0 : ℚ) < 2 ^ k := by positivity
  have hcases := roundedKept_cases pn (k + 1)
  generalize pn / 2 ^ (k + 1) = q at *
  generalize pn % 2 ^ (k + 1) = r at *
  have hr0 : (0 : ℚ) ≤ r := Nat.cast_nonneg r
  have hd1 : x - gridMagnitude lo = (r : ℚ) / 2 ^ (k + 1) * u := by
    rw [hx, h1, hsplit]; field_simp; ring
  have hd2 : gridMagnitude (lo + 1) - x = (2 ^ (k + 1) - (r : ℚ)) / 2 ^ (k + 1) * u := by
    rw [hx, h2, hsplit]; field_simp; ring
  have scale : ∀ a b : ℚ, a < b → a / 2 ^ (k + 1) * u < b / 2 ^ (k + 1) * u := fun a b hab =>
    mul_lt_mul_of_pos_right (div_lt_div_of_pos_right hab (by positivity)) hu
  have pos1 : 0 ≤ (r : ℚ) / 2 ^ (k + 1) * u := by positivity
  have pos2 := scale 0 (2 ^ (k + 1) - r) (by linarith)
  rw [zero_div, zero_mul] at pos2
  have cast_lt : ∀ {a b : Nat}, a < b → (a : ℚ) < b := fun h => by exact_mod_cast h
  have hpow : ((2 ^ (k + 1 - 1) : Nat) : ℚ) = 2 ^ k := by simp
  refine roundsToNearestEven_of_between hlo (by linarith) (by linarith) ?_
  rw [hd1, hd2]
  rcases hcases with ⟨he, hc⟩ | ⟨he, hc⟩
  · refine .inl ⟨by omega, ?_⟩
    rcases hc with hc | ⟨hc, hp⟩
    · have := cast_lt hc
      rw [hpow] at this
      exact .inl (scale _ _ (by linarith))
    · have : (r : ℚ) = 2 ^ k := by rw [hc, hpow]
      exact .inr ⟨by rw [this, hhalf]; congr 2; ring, by omega⟩
  · refine .inr ⟨by omega, ?_⟩
    rcases hc with hc | ⟨hc, hp⟩
    · have := cast_lt hc
      rw [hpow] at this
      exact .inl (scale _ _ (by linarith))
    · have : (r : ℚ) = 2 ^ k := by rw [hc, hpow]
      exact .inr ⟨by rw [this, hhalf]; congr 2; ring, by omega⟩

/-- Above the whole grid everything rounds to the infinity's index. -/
theorem roundsToNearestEven_of_ge {x : ℚ} (h : gridMagnitude infinityIndex ≤ x) :
    RoundsToNearestEven x infinityIndex := by
  refine ⟨le_rfl, fun m hm hne => .inl ?_⟩
  have := gridMagnitude_strictMono (show m < infinityIndex by omega)
  rw [abs_sub_comm, abs_of_nonneg (by linarith), abs_sub_comm, abs_of_nonneg (by linarith)]
  linarith

theorem gridMagnitude_infinityIndex : gridMagnitude infinityIndex = (2 : ℚ) ^ (1024 : Int) := by
  have h : infinityIndex = 2047 * 2 ^ 52 + 0 := rfl
  rw [h, gridMagnitude_fields 2047 (by decide), if_neg (by decide)]
  have e : (1024 : Int) = 52 + (((2047 : Nat) : Int) - 1075) := by norm_num
  rw [e, zpow_add₀ (by norm_num)]
  norm_num

/-- Inside one binade: `2^52 ≤ k ≤ 2^53` stands for `k` units of `2^(e − 52)`, the top of the range included. -/
theorem gridMagnitude_normal {e : Int} {k : Nat} (he : -1022 ≤ e) (hk1 : 2 ^ 52 ≤ k) (hk2 : k ≤ 2 ^ 53) :
    gridMagnitude ((e + 1022).toNat * 2 ^ 52 + k) = (k : ℚ) * (2 : ℚ) ^ (e - 52) := by
  obtain ⟨j, rfl⟩ : ∃ j : Nat, e = (j : Int) - 1022 := ⟨(e + 1022).toNat, by omega⟩
  have hj : ((j : Int) - 1022 + 1022).toNat = j := by omega
  rw [hj]
  rcases Nat.lt_or_ge k (2 ^ 53) with h | h
  · obtain ⟨m, rfl⟩ := Nat.exists_eq_add_of_le hk1
    have h1 : j * 2 ^ 52 + (2 ^ 52 + m) = (j + 1) * 2 ^ 52 + m := by ring
    have h2 : (((j + 1 : Nat) : Int) - 1075) = (j : Int) - 1022 - 52 := by push_cast; ring
    rw [h1, gridMagnitude_fields (j + 1) (by omega), if_neg (by omega), h2]
    push_cast; ring
  · obtain rfl : k = 2 ^ 53 := by omega
    have h1 : j * 2 ^ 52 + 2 ^ 53 = (j + 2) * 2 ^ 52 + 0 := by ring
    have h2 : (((j + 2 : Nat) : Int) - 1075) = ((j : Int) - 1022 - 52) + 1 := by push_cast; ring
    rw [h1, gridMagnitude_fields (j + 2) (by decide), if_neg (by omega), h2, zpow_add_one₀ (by norm_num)]
    push_cast; ring

/-- In the subnormal range and at its top, `k ≤ 2^52` stands for `k` units of 2^−1074. -/
theorem gridMagnitude_subnormal {k : Nat} (hk : k ≤ 2 ^ 52) :
    gridMagnitude k = (k : ℚ) * (2 : ℚ) ^ (-1074 : Int) := by
  rcases Nat.lt_or_ge k (2 ^ 52) with h | h
  · have := gridMagnitude_fields 0 h
    rwa [Nat.zero_mul, Nat.zero_add, if_pos rfl] at this
  · obtain rfl : k = 2 ^ 52 := by omega
    have h1 : 2 ^ 52 = 1 * 2 ^ 52 + 0 := by decide
    rw [h1, gridMagnitude_fields 1 (by decide), if_neg (by decide)]
    norm_num

/-- A finite pattern's magnitude is that of its index (R35, R36). -/
theorem magnitude_fields (a : FloatValue) :
    gridMagnitude ((expField a).toNat * 2 ^ 52 + (mantField a).toNat) = magnitude a := by
  rw [gridMagnitude_fields _ (mantField a).isLt, magnitude, significand, effectiveExponent]
  split
  · norm_num
  · have h : ((expField a).toNat : Int) - 1023 - 52 = ((expField a).toNat : Int) - 1075 := by ring
    rw [h]; push_cast; rfl

theorem gridIndex_eq (a : FloatValue) : gridIndex a = (expField a).toNat * 2 ^ 52 + (mantField a).toNat := by
  rw [gridIndex, expField_toNat, mantField_toNat]
  have := a.isLt
  omega

end Sys2Proof.Machine
end

