-- ==== Sys2Proof/Tests/Slice0.lean ====
section
/-! SUPPORT. Tests: the well-formedness checks, the selector words, at most two single steps per operation with results
taken from spec/95_test_vectors.md, and a witness for the hypotheses of every statement that has some. -/

namespace Sys2Proof.Tests

open Sys2Proof Sys2Proof.Machine

/-! ### Well-formedness: one ill-formed call per check -/

theorem test_wellFormed_exponent_above : (Call.compose false 4096 0).wellFormed = false := by decide
theorem test_wellFormed_exponent_below : (Call.normround false (-4097) 0).wellFormed = false := by decide
theorem test_wellFormed_mantissa : (Call.compose false 0 (2 ^ 64)).wellFormed = false := by decide
theorem test_wellFormed_product : (Call.normround false 0 (2 ^ 106)).wellFormed = false := by decide
theorem test_wellFormed_bounds : (Call.compose true (-4096) (2 ^ 64 - 1)).wellFormed = true ∧
    (Call.normround true 4095 (2 ^ 106 - 1)).wellFormed = true := by decide

/-! ### Selector words, from the column `op` of R42 -/

theorem test_decode_mul : decode 0b0000#4 = .ok .mul := rfl
theorem test_decode_decompose : decode 0b0001#4 = .ok .decompose := rfl
theorem test_decode_compose : decode 0b0010#4 = .ok .compose := rfl
theorem test_decode_classify : decode 0b0011#4 = .ok .classify := rfl
theorem test_decode_nanprop : decode 0b0100#4 = .ok .nanprop := rfl
theorem test_decode_canonnan : decode 0b0101#4 = .ok .canonnan := rfl
theorem test_decode_inf : decode 0b0110#4 = .ok .inf := rfl
theorem test_decode_normround : decode 0b0111#4 = .ok .normround := rfl
theorem test_decode_negate : decode 0b1000#4 = .ok .negate := rfl
theorem test_decode_cmplt : decode 0b1001#4 = .ok .cmplt := rfl
theorem test_decode_cmpgt : decode 0b1010#4 = .ok .cmpgt := rfl
theorem test_decode_cmpeq : decode 0b1011#4 = .ok .cmpeq := rfl
theorem test_decode_reserved : decode 0b1100#4 = .error (.reservedSelector 0b1100#4) := rfl
theorem test_decodeTableWord : decodeTableWord 8 0x7 = some .normround ∧ decodeTableWord 8 0xC = none := by decide
theorem test_withFetchWord : step (State.reset.withFetchWord 8 0xB) = exec .cmpeq (State.reset.withFetchWord 8 0xB) := rfl
theorem test_step_reserved : step (State.reset.withFetchWord 8 0xF) = .refused (.reservedSelector 0xF) := rfl

/-! ### One step of each operation -/

/-- The driven outputs of one step after reset with a call presented. -/
def outputsOf (c : Call) : Option Visible :=
  match step (State.reset.present c) with
  | .next t => some (visible c.instr t.out)
  | .fault _ => none
  | .refused _ => none

-- 95 section 2.5, conflict C3: branch 1 keeps the lowest product bit.
theorem test_mul_lowest_bit : outputsOf (.mul 0x3FF7FFFFFFFFFFFF 0x3FF7FFFFFFFFFFFF) =
    some { r := some 0x4001FFFFFFFFFFFF } := by decide
-- 95 section 2.6, ROUND_CARRY = propagate: the carry at exponent 1023 is the infinity.
theorem test_mul_carry_to_infinity : outputsOf (.mul 0x7FE6A09E667F3BCC 0x3FF6A09E667F3BCD) =
    some { r := some 0x7FF0000000000000 } := by decide
-- 95 section 2.1.
theorem test_decompose_subnormal : outputsOf (.decompose 0x8000000000000001) =
    some { sOut := some true, eOut := some (-1023), mOut := some 1 } := by decide
theorem test_decompose_nan : outputsOf (.decompose 0xFFFFFFFFFFFFFFFF) =
    some { sOut := some true, eOut := some 1024, mOut := some 0xFFFFFFFFFFFFF } := by decide
theorem test_compose_negative_rebias : outputsOf (.compose true (-1025) 3) = some { r := some 0xFFE0000000000003 } := by
  decide
theorem test_compose_truncates : outputsOf (.compose true 0 0xFFFFFFFFFFFFFFFF) =
    some { r := some 0xBFFFFFFFFFFFFFFF } := by decide
-- 95 section 2.3.
theorem test_classify_signaling : outputsOf (.classify 0x7FF7FFFFFFFFFFFF) = some { cls := some 0b1010000 } := by decide
theorem test_classify_subnormal : outputsOf (.classify 0x800FFFFFFFFFFFFF) = some { cls := some 0b0000010 } := by decide
-- 95 section 2.2.
theorem test_nanprop_other_signaling : outputsOf (.nanprop 0xFFFC000000000004 0xFFF4000000000002) =
    some { hit := some true, r := some 0xFFFC000000000002 } := by decide
theorem test_nanprop_none : outputsOf (.nanprop 0x3FF0000000000000 0x7FF0000000000000) =
    some { hit := some false } := by decide
theorem test_canonnan_default : outputsOf .canonnan = some { r := some 0x7FF8000000000000 } := by decide
theorem test_canonnan_negative :
    canonicalNaN { Config.defaults with canonicalNaN := { sign := true, payload := 0 } } = 0xFFF8000000000000 := by
  decide
theorem test_inf_positive : outputsOf (.inf false) = some { r := some 0x7FF0000000000000 } := by decide
theorem test_inf_negative : outputsOf (.inf true) = some { r := some 0xFFF0000000000000 } := by decide
-- 95 section 2.10.
theorem test_normround_full_width_shift : outputsOf (.normround false (-1076) 0x200000000000000000000000001) =
    some { r := some 1 } := by decide
theorem test_normround_one : outputsOf (.normround false 104 1) = some { r := some 0x3FF0000000000000 } := by decide
theorem test_negate_signaling : outputsOf (.negate 0x7FF0000000000001) = some { r := some 0xFFF0000000000001 } := by
  decide
theorem test_negate_zero : outputsOf (.negate 0) = some { r := some 0x8000000000000000 } := by decide
theorem test_cmplt_mixed_sign : outputsOf (.cmplt 0x3FF0000000000000 0xBFF0000000000000) =
    some { flag := some true } := by decide
theorem test_cmplt_strict : outputsOf (.cmplt 5 5) = some { flag := some false } := by decide
theorem test_cmpgt : outputsOf (.cmpgt 0x4000000000000000 0x3FF0000000000000) = some { flag := some true } := by decide
theorem test_cmpgt_strict : outputsOf (.cmpgt 5 5) = some { flag := some false } := by decide
theorem test_cmpeq_zeros : outputsOf (.cmpeq 0 0x8000000000000000) = some { flag := some false } := by decide
theorem test_cmpeq_nan : outputsOf (.cmpeq 0x7FF8000000000000 0x7FF8000000000000) = some { flag := some true } := by
  decide

/-! ### Witnesses: concrete values that meet the hypotheses of a statement, clause by clause -/

/-- A state with two operands on the ports. -/
def withOperands (a b : FloatValue) : State := State.reset.present (.mul a b)

theorem witness_StepRunsSelectedOperation : decode (State.reset.inp.op) = .ok .mul ∧
    decodeTableWord 8 0xB = some .cmpeq := by decide
theorem witness_StepIsTotalAndNeverFaults :
    (State.reset.withFetchWord 8 11).inp.op.toNat < 12 ∧ 12 ≤ (State.reset.withFetchWord 8 12).inp.op.toNat := by decide
theorem witness_SelectorsAndOperationsMatch : decode 0xB#4 = .ok .cmpeq := rfl
theorem witness_PresentedCallIsReadBack : (Call.compose true (-4096) (2 ^ 64 - 1)).wellFormed = true ∧
    (Call.normround false 4095 (2 ^ 106 - 1)).wellFormed = true := by decide
theorem witness_ReadCallFitsItsPorts : decodeCall State.reset.inp = .ok (.mul 0 0) := rfl
theorem witness_ResultsDependOnlyOnReadPorts : ∃ s t : State, s.inp ≠ t.inp ∧ s.params = t.params ∧
    agreeOn .inf s.inp t.inp :=
  ⟨withOperands 1 2, withOperands 3 4, by decide, rfl, rfl⟩
theorem witness_NoResultDependsOnEarlierOperations : ∃ (s t : State) (i : Instr), s ≠ t ∧ decode s.inp.op = .ok i ∧
    s.inp = t.inp ∧ s.params = t.params :=
  ⟨State.reset, { State.reset with draws := 7 }, .mul, by decide, rfl, rfl, rfl⟩
theorem witness_ResetChangesNoResult : decode (withOperands 1 2).inp.op = .ok .mul := rfl
theorem witness_EvaluatingAgainReturnsTheSame : ∃ (s t : State) (i : Instr), decode s.inp.op = .ok i ∧ step s = .next t :=
  ⟨State.reset, _, .mul, rfl, rfl⟩
theorem witness_EveryStepKeepsOutputsSettled : ∃ s t : State, s.Settled ∧ step s = .next t :=
  ⟨State.reset, _, fun c h => by cases h; rfl, rfl⟩
theorem witness_PortsAgreeWithFunctions : (Call.normround true (-4096) (2 ^ 106 - 1)).wellFormed = true := by decide
theorem witness_DecomposeUndoesCompose : ∃ (e e' : Int) (m : Nat), e = -1023 ∧ e' = 1024 ∧ m = 2 ^ 52 - 1 ∧
    -1023 ≤ e ∧ e ≤ 1024 ∧ -1023 ≤ e' ∧ e' ≤ 1024 ∧ m < 2 ^ 52 := ⟨-1023, 1024, 2 ^ 52 - 1, by decide⟩
theorem witness_ComparisonsOrderMagnitudes :
    isNaN (withOperands 1 0x7FF0000000000000).inp.a = false ∧ isNaN (withOperands 1 0x7FF0000000000000).inp.b = false ∧
    signBit (withOperands 1 0x7FF0000000000000).inp.a = signBit (withOperands 1 0x7FF0000000000000).inp.b := by decide
theorem witness_QuietBitSplitsTheNaNs : isNaN 0x7FF0000000000001 = true ∧ isSignalingNaN 0x7FF0000000000001 = true ∧
    isNaN 0x7FF8000000000000 = true := by decide
theorem witness_NanpropSelectsAndQuiets :
    (isNaN (withOperands 0x7FF0000000000000 0).inp.a = false ∧ isNaN (withOperands 0x7FF0000000000000 0).inp.b = false) ∧
    isNaN (withOperands 0x7FF0000000000001 0).inp.a = true ∧ isNaN (withOperands 0 0xFFF8000000000000).inp.b = true := by
  decide
theorem witness_CanonnanReturnsTheParameter : isQuietNaN 0xFFF8000000000000 = true := by decide
theorem witness_NormroundOfZeroProduct : State.reset.inp.pIn = 0 := rfl
theorem witness_NormalisationKeepsTheNumber : ∃ p q : Nat, (0 < p ∧ p < 2 ^ 106 ∧ p.testBit 105 = false) ∧
    (0 < q ∧ q < 2 ^ 106 ∧ q.testBit 105 = true) := ⟨2 ^ 105 - 1, 2 ^ 105, by decide⟩

/-- A state with NORMROUND's inputs on the ports. -/
def withProduct (we : Int) (p : Nat) : State := State.reset.present (.normround false we p)

theorem inputMagnitude_powerOfTwo (we : Int) : inputMagnitude we (2 ^ 104) = (2 : ℚ) ^ we := by
  rw [inputMagnitude, Nat.cast_pow, Nat.cast_ofNat, ← zpow_natCast, ← zpow_add₀ (by norm_num)]
  congr 1; push_cast; ring

/-- The overflow clause at its boundary 2^1024, the underflow clause just below 2^−1075. -/
theorem witness_NormroundOverflowAndUnderflow : (withProduct 1024 (2 ^ 104)).inp.pIn ≠ 0 ∧
    (2 : ℚ) ^ (1024 : Int) ≤
      inputMagnitude (withProduct 1024 (2 ^ 104)).inp.eIn.toInt (withProduct 1024 (2 ^ 104)).inp.pIn.toNat ∧
    inputMagnitude (withProduct (-1076) (2 ^ 104)).inp.eIn.toInt (withProduct (-1076) (2 ^ 104)).inp.pIn.toNat <
      (2 : ℚ) ^ (-1075 : Int) := by
  have e1 : (withProduct 1024 (2 ^ 104)).inp.eIn.toInt = 1024 := by decide
  have e2 : (withProduct (-1076) (2 ^ 104)).inp.eIn.toInt = -1076 := by decide
  have p1 : (withProduct 1024 (2 ^ 104)).inp.pIn.toNat = 2 ^ 104 := by decide
  have p2 : (withProduct (-1076) (2 ^ 104)).inp.pIn.toNat = 2 ^ 104 := by decide
  rw [e1, e2, p1, p2, inputMagnitude_powerOfTwo, inputMagnitude_powerOfTwo]
  exact ⟨by decide, le_rfl, zpow_lt_zpow_right₀ (by norm_num) (by norm_num)⟩

/-- The subnormal clause at −1075 and −1023, the normal clause at −1022 and 1023. -/
theorem witness_RoundingStaysInRange :
    roundingOf (normalised (-1075) (2 ^ 104)) = some { shift := 105, we := -1023 } ∧
    roundingOf (normalised (-1023) (2 ^ 104)) = some { shift := 53, we := -1023 } ∧
    roundingOf (normalised (-1022) (2 ^ 104)) = some { shift := 52, we := -1022 } ∧
    roundingOf (normalised 1023 (2 ^ 104)) = some { shift := 52, we := 1023 } ∧
    (normalised 1023 (2 ^ 104)).we < 1024 := by decide
theorem witness_KeptRoundsToNearestEven : 5 % 2 ^ 2 < 2 ^ (2 - 1) ∧ 6 % 2 ^ 2 = 2 ^ (2 - 1) ∧ 7 % 2 ^ 2 > 2 ^ (2 - 1) := by
  decide
/-- A carry at 1023, a carry out of the subnormal range, and no carry (products of 95 section 2.6). -/
theorem witness_RoundCarrySettingsDifferOnCarry :
    (roundingOf (normalised 1023 0x1FFFFFFFFFFFFFD135158DEE65C) = some { shift := 52, we := 1023 } ∧
      roundedKept (normalised 1023 0x1FFFFFFFFFFFFFD135158DEE65C).pn 52 = 2 ^ 53) ∧
    (roundingOf (normalised (-1023) 0x1FFFFFFFFFFFFFD135158DEE65C) = some { shift := 53, we := -1023 } ∧
      roundedKept (normalised (-1023) 0x1FFFFFFFFFFFFFD135158DEE65C).pn 53 = 2 ^ 52) ∧
    roundedKept (normalised 0 (2 ^ 104)).pn 52 = 2 ^ 52 := by decide
theorem witness_ClosedFormIsNormround : (withProduct 0 1).inp.pIn ≠ 0 ∧ 0 < 2 ^ 106 - 1 := by decide
theorem witness_NormroundIsRoundToNearestEven : (withProduct 0 1).params.roundCarry = .propagate ∧
    (withProduct 0 1).inp.pIn ≠ 0 := by decide
theorem witness_RoundingOnTheGridIsUnique :
    (isNaN 0x7FEFFFFFFFFFFFFF = false ∧ isInfinity 0x7FEFFFFFFFFFFFFF = false) ∧ 0 ≤ infinityIndex ∧
    RoundsToNearestEven (2 ^ (1024 : Int)) infinityIndex :=
  ⟨by decide, by decide, roundsToNearestEven_of_ge (by rw [gridMagnitude_infinityIndex])⟩
theorem witness_ProductRegisterWidthIsUnobservable : 106 ≤ 128 ∧ 0 < 2 ^ 106 - 1 ∧ 2 ^ 106 - 1 < 2 ^ 106 := by decide

theorem witness_MulPropagatesNaNs : isNaN (withOperands 0x7FF0000000000001 0).inp.a = true ∧
    isNaN (withOperands 0 0x7FF8000000000000).inp.b = true := by decide
theorem witness_MulNaNDecisionTable :
    isSignalingNaN (withOperands 0x7FF0000000000001 0).inp.a = true ∧
    (isQuietNaN (withOperands 0x7FF8000000000000 0x7FF0000000000001).inp.a = true ∧
      isSignalingNaN (withOperands 0x7FF8000000000000 0x7FF0000000000001).inp.b = true) ∧
    (isQuietNaN (withOperands 0x7FF8000000000000 0).inp.a = true ∧
      isSignalingNaN (withOperands 0x7FF8000000000000 0).inp.b = false) ∧
    (isNaN (withOperands 0 0x7FF8000000000000).inp.a = false ∧ isNaN (withOperands 0 0x7FF8000000000000).inp.b = true) := by
  decide
theorem witness_MulOrderMattersOnlyForNaNs :
    (isNaN 0 = false ∧ isNaN 0x7FF0000000000000 = false) ∧
    (isNaN 0xFFFC000000000004 = true ∧ isNaN 0x3FF0000000000000 = false) ∧
    (isSignalingNaN 0x7FF0000000000001 = true ∧ isQuietNaN 0x7FF8000000000000 = true) ∧
    (isNaN 0x7FF8000000000003 = true ∧ isNaN 0xFFFC000000000004 = true ∧
      isQuietNaN 0x7FF8000000000003 = isQuietNaN 0xFFFC000000000004) := by decide
theorem witness_MulOfInfinities :
    (isNaN (withOperands 0 0x7FF0000000000000).inp.a = false ∧ isNaN (withOperands 0 0x7FF0000000000000).inp.b = false ∧
      isInfinity (withOperands 0 0x7FF0000000000000).inp.b = true ∧ isZero (withOperands 0 0x7FF0000000000000).inp.a = true) ∧
    (isInfinity (withOperands 1 0xFFF0000000000000).inp.b = true ∧ isZero (withOperands 1 0xFFF0000000000000).inp.a = false ∧
      isZero (withOperands 1 0xFFF0000000000000).inp.b = false) := by decide
theorem witness_MulOfZeros :
    isNaN (withOperands 0 0x7FEFFFFFFFFFFFFF).inp.b = false ∧ isInfinity (withOperands 0 0x7FEFFFFFFFFFFFFF).inp.a = false ∧
    isInfinity (withOperands 0 0x7FEFFFFFFFFFFFFF).inp.b = false ∧ isNaN (withOperands 0 0x7FEFFFFFFFFFFFFF).inp.a = false ∧
    isZero (withOperands 0 0x7FEFFFFFFFFFFFFF).inp.a = true := by decide
theorem witness_MulSignIsExclusiveOr :
    isNaN (withOperands 0x7FF0000000000000 1).inp.a = false ∧ isNaN (withOperands 0x7FF0000000000000 1).inp.b = false ∧
    ¬ (isInfinity (withOperands 0x7FF0000000000000 1).inp.a = true ∧ isZero (withOperands 0x7FF0000000000000 1).inp.b = true) ∧
    ¬ (isZero (withOperands 0x7FF0000000000000 1).inp.a = true ∧
      isInfinity (withOperands 0x7FF0000000000000 1).inp.b = true) := by decide
theorem witness_MulByOneIsIdentity :
    (withOperands 1 0x3FF0000000000000).inp.b = 0x3FF0000000000000#64 ∧
    isNaN (withOperands 1 0x3FF0000000000000).inp.a = false ∧
    isNaN (withOperands 0x7FF0000000000001 0x3FF0000000000000).inp.a = true := by decide
theorem witness_MulIsNormroundOfExactProduct : isFiniteNonzero (withOperands 1 0x7FEFFFFFFFFFFFFF).inp.a = true ∧
    isFiniteNonzero (withOperands 1 0x7FEFFFFFFFFFFFFF).inp.b = true := by decide
theorem witness_MulTemporariesStayInRange : isFiniteNonzero 1 = true ∧ isFiniteNonzero 0xFFEFFFFFFFFFFFFF = true := by decide
theorem witness_MulIsCorrectlyRoundedProduct :
    (withOperands 0 0x7FEFFFFFFFFFFFFF).params.roundCarry = .propagate ∧
    isNaN (withOperands 0 0x7FEFFFFFFFFFFFFF).inp.a = false ∧ isNaN (withOperands 0 0x7FEFFFFFFFFFFFFF).inp.b = false ∧
    isInfinity (withOperands 0 0x7FEFFFFFFFFFFFFF).inp.a = false ∧
    isInfinity (withOperands 0 0x7FEFFFFFFFFFFFFF).inp.b = false := by decide

theorem witness_OutputsFollowTheInputs : ∃ (s t : State) (i : Instr), s.Settled ∧ decode s.inp.op = .ok i ∧
    step s = .next t := ⟨State.reset, _, .mul, fun c h => by cases h; rfl, rfl, rfl⟩

/-- The outputs follow a presented call before any step (R19): −2 × 3 = −6, 95 section 2.4. -/
theorem test_outputs_follow_present :
    (State.reset.present (.mul 0xC000000000000000 0x4008000000000000)).out.r = 0xC018000000000000 := by decide

end Sys2Proof.Tests
end

section
/-! PROOFS. The quiet bit (30_encoding.md R34): what forcing bit 51 changes and keeps, and how it splits the NaNs. -/

namespace Sys2Proof.Machine

/-! ### Rules for `quieted`, by bit and by field -/

theorem getLsbD_quieted (a : FloatValue) (k : Nat) :
    (quieted a).getLsbD k = (a.getLsbD k || decide (k = 51)) := by
  by_cases hk : k = 51 <;> simp [quieted, BitVec.getLsbD_twoPow, hk, eq_comm]

theorem getLsbD_quieted_of_ne (a : FloatValue) {k : Nat} (hk : k ≠ 51) :
    (quieted a).getLsbD k = a.getLsbD k := by
  simp [getLsbD_quieted, hk]

@[simp] theorem quietBit_quieted (a : FloatValue) : quietBit (quieted a) = true := by
  simp [quietBit, getLsbD_quieted]

@[simp] theorem signBit_quieted (a : FloatValue) : signBit (quieted a) = signBit a :=
  getLsbD_quieted_of_ne a (by decide)

@[simp] theorem expField_quieted (a : FloatValue) : expField (quieted a) = expField a := by
  apply BitVec.eq_of_getLsbD_eq
  intro i _
  simp only [expField, BitVec.getLsbD_extractLsb']
  rw [getLsbD_quieted_of_ne a (by omega)]

/-! ### The mantissa by its bits -/

theorem mantField_ne_zero_iff (a : FloatValue) : mantField a ≠ 0 ↔ ∃ k, k < 52 ∧ a.getLsbD k = true := by
  have hbit (k : Nat) (hk : k < 52) : (mantField a).getLsbD k = a.getLsbD k := by
    simp [mantField, hk]
  constructor
  · intro hne
    by_contra! hclear
    refine hne (BitVec.eq_of_getLsbD_eq fun k hk => ?_)
    simpa [hbit k hk] using hclear k hk
  · rintro ⟨k, hk, hset⟩ hzero
    simp [← hbit k hk, hzero] at hset

/-- R64 with the mantissa's condition read bit by bit. -/
theorem isNaN_iff_bits (a : FloatValue) :
    isNaN a = true ↔ expField a = 2047 ∧ ∃ k, k < 52 ∧ a.getLsbD k = true := by
  rw [← mantField_ne_zero_iff]
  simp [isNaN]

/-! ### The two kinds of NaN -/

theorem isQuietNaN_iff_of_isNaN {a : FloatValue} (h : isNaN a = true) :
    isQuietNaN a = true ↔ a.getLsbD 51 = true := by
  simp [isQuietNaN, quietBit, h]

theorem isSignalingNaN_iff_of_isNaN {a : FloatValue} (h : isNaN a = true) :
    isSignalingNaN a = true ↔ a.getLsbD 51 = false := by
  simp [isSignalingNaN, quietBit, h]

/-- With bit 51 clear, the bit that keeps a signaling NaN's mantissa from zero is one of 50:0. -/
theorem exists_payloadBit_of_isSignalingNaN {a : FloatValue} (h : isSignalingNaN a = true) :
    ∃ k, k < 51 ∧ a.getLsbD k = true := by
  obtain ⟨hNaN, hclear⟩ : isNaN a = true ∧ a.getLsbD 51 = false := by
    simpa [isSignalingNaN, quietBit] using h
  obtain ⟨-, k, hk, hset⟩ := (isNaN_iff_bits a).mp hNaN
  have hne : k ≠ 51 := by
    intro heq
    rw [heq, hclear] at hset
    contradiction
  exact ⟨k, by omega, hset⟩

/-- The exponent field stays all ones and bit 51 itself keeps the mantissa from zero. -/
theorem isQuietNaN_quieted {a : FloatValue} (h : isNaN a = true) : isQuietNaN (quieted a) = true := by
  obtain ⟨hexp, -⟩ := (isNaN_iff_bits a).mp h
  have hNaN : isNaN (quieted a) = true :=
    (isNaN_iff_bits _).mpr ⟨(expField_quieted a).trans hexp, 51, by decide, quietBit_quieted a⟩
  exact (isQuietNaN_iff_of_isNaN hNaN).mpr (quietBit_quieted a)

/-- Settles O30, from the bitwise rule for `quieted` and the mantissa read bit by bit. -/
theorem quietBitSplitsTheNaNs : Obligations.QuietBitSplitsTheNaNs := fun a h =>
  ⟨isQuietNaN_iff_of_isNaN h, isSignalingNaN_iff_of_isNaN h, exists_payloadBit_of_isSignalingNaN,
    isQuietNaN_quieted h, signBit_quieted a, fun _ hk => getLsbD_quieted_of_ne a hk.ne⟩

end Sys2Proof.Machine
end

section
/-! PROOFS. The bit encoding (40_bit_encoding.md): DECOMPOSE and the round trip through COMPOSE (R51, R53), NEGATE
(R54), and the raw-pattern comparisons (R55 to R57). -/

namespace Sys2Proof.Machine

/-! ### Completion through the two single-port updates -/

theorem completes_of_driveR {i : Instr} {s : State} {post : State → Prop} (v : FloatValue)
    (h : exec i s = .next (s.driveR v)) (hp : post (s.driveR v)) : Completes i s post :=
  completes_of_drive _ h hp

theorem completes_of_driveFlag {i : Instr} {s : State} {post : State → Prop} (v : Bool)
    (h : exec i s = .next (s.driveFlag v)) (hp : post (s.driveFlag v)) : Completes i s post :=
  completes_of_drive _ h hp

/-! ### The comparisons -/

theorem rawLess_iff (a b : FloatValue) : rawLess a b = true ↔ a.toNat < b.toNat := decide_eq_true_iff

theorem rawGreater_iff (a b : FloatValue) : rawGreater a b = true ↔ a.toNat > b.toNat := decide_eq_true_iff

/-- Equal as numbers is equal as patterns. -/
theorem rawEqual_iff (a b : FloatValue) : rawEqual a b = true ↔ a = b :=
  decide_eq_true_iff.trans BitVec.toNat_inj

/-- Settles O25: each operation drives `flag` with its raw comparison. -/
theorem comparisonsAreUnsigned : Obligations.ComparisonsAreUnsigned := fun s =>
  ⟨completes_of_driveFlag _ rfl (rawLess_iff s.inp.a s.inp.b),
    completes_of_driveFlag _ rfl (rawGreater_iff s.inp.a s.inp.b),
    completes_of_driveFlag _ rfl (rawEqual_iff s.inp.a s.inp.b)⟩

/-! ### Rules for `negated`, by bit, by field and as a number -/

theorem getLsbD_negated (a : FloatValue) (k : Nat) :
    (negated a).getLsbD k = Bool.xor (a.getLsbD k) (decide (k = 63)) := by
  by_cases hk : k = 63 <;> simp [negated, BitVec.getLsbD_twoPow, hk, eq_comm]

@[simp] theorem signBit_negated (a : FloatValue) : signBit (negated a) = !signBit a := by
  rw [signBit, getLsbD_negated, decide_eq_true rfl, Bool.xor_true, signBit]

theorem getLsbD_negated_of_lt (a : FloatValue) {k : Nat} (hk : k < 63) : (negated a).getLsbD k = a.getLsbD k := by
  simp [getLsbD_negated, hk.ne]

/-- Every field below the sign stands. -/
theorem extractLsb'_negated (a : FloatValue) {start len : Nat} (h : start + len ≤ 63) :
    (negated a).extractLsb' start len = a.extractLsb' start len := by
  apply BitVec.eq_of_getLsbD_eq
  intro i hi
  rw [BitVec.getLsbD_extractLsb', BitVec.getLsbD_extractLsb', getLsbD_negated_of_lt a (by omega)]

@[simp] theorem expField_negated (a : FloatValue) : expField (negated a) = expField a :=
  extractLsb'_negated a (by decide)

@[simp] theorem mantField_negated (a : FloatValue) : mantField (negated a) = mantField a :=
  extractLsb'_negated a (by decide)

/-- Adding 2^63 sets a clear sign bit, and carries a set one out of the 64 bits; the other fields stand. -/
theorem negated_toNat (a : FloatValue) : (negated a).toNat = (a.toNat + 2 ^ 63) % 2 ^ 64 := by
  have he := (expField a).isLt
  have hm := (mantField a).isLt
  rw [toNat_eq_fields (negated a), toNat_eq_fields a, signBit_negated, expField_negated, mantField_negated]
  cases signBit a <;> simp only [Bool.not_true, Bool.not_false, if_true, Bool.false_eq_true, if_false] <;> omega

/-- Settles O23, from the rules for `negated`. -/
theorem negateFlipsOnlyTheSign : Obligations.NegateFlipsOnlyTheSign := fun s =>
  completes_of_driveR _ rfl
    ⟨negated_toNat s.inp.a, signBit_negated s.inp.a, fun _ hk => getLsbD_negated_of_lt s.inp.a hk⟩

/-! ### DECOMPOSE and its round trip -/

theorem decomposed_exponent_eq (a : FloatValue) :
    (decomposed a).exponent = ((a.toNat / 2 ^ 52 % 2 ^ 11 : Nat) : Int) - 1023 := by
  rw [decomposed, expField_toNat]

/-- The invariant of the triple (R32). -/
theorem decomposed_exponent_bounds (a : FloatValue) :
    -1023 ≤ (decomposed a).exponent ∧ (decomposed a).exponent ≤ 1024 := by
  rw [decomposed_exponent_eq]
  omega

/-- Settles O18: the exponent passes `e_out` unchanged, being within the triple's bounds. -/
theorem decomposeGivesTheFields : Obligations.DecomposeGivesTheFields := by
  intro s
  obtain ⟨hlo, hhi⟩ := decomposed_exponent_bounds s.inp.a
  refine completes_of_drive _ rfl ⟨signBit_eq s.inp.a, ?_, mantField_toNat s.inp.a, ?_, ?_⟩
  · exact (exponentOut_toInt s.inp.a).trans (decomposed_exponent_eq s.inp.a)
  · exact hlo.trans_eq (exponentOut_toInt s.inp.a).symm
  · exact (exponentOut_toInt s.inp.a).trans_le hhi

/-- DECOMPOSE of COMPOSE for any integers: the re-biased exponent and the mantissa come back masked (R52). -/
theorem callResult_decompose_composed (p : Config.Params) (sign : Bool) (e : Int) (m : Nat) :
    callResult p (.decompose (composed sign e m)) =
      some { sOut := some sign, eOut := some ((e + 1023) % 2 ^ 11 - 1023), mOut := some (m % 2 ^ 52) } := by
  have hmask : (((e + 1023) % 2 ^ 11).toNat : Int) = (e + 1023) % 2 ^ 11 :=
    Int.toNat_of_nonneg (Int.emod_nonneg _ (by decide))
  simp only [callResult, decomposed, signBit_composed, expField_composed, mantField_composed, hmask]

/-- Settles O21: on the stated ranges the masks of R52 change nothing; 1025 re-biases to 2^11, which they clear. -/
theorem decomposeUndoesCompose : Obligations.DecomposeUndoesCompose := by
  refine ⟨fun p sign e m hlo hhi hm => ?_, fun p => callResult_decompose_composed p false 1025 0⟩
  have he : (e + 1023) % 2 ^ 11 = e + 1023 := Int.emod_eq_of_lt (by omega) (by omega)
  rw [callResult_decompose_composed, he, add_sub_cancel_right, Nat.mod_eq_of_lt hm]

end Sys2Proof.Machine
end

section
/-! PROOFS. The special values (41_special_values.md): the NaN patterns and their number (R64), NANPROP (R68) and INF
(R71). -/

namespace Sys2Proof.Machine

/-! ### INF -/

/-- Settles O33: INF drives `r` with the infinity of `s_in`. -/
theorem infGivesTheInfinity : Obligations.InfGivesTheInfinity := fun s =>
  completes_of_driveR _ rfl (infinityOf_toNat s.inp.sIn)

/-! ### The number of NaN patterns -/

theorem isNaN_iff_toNat (a : FloatValue) :
    isNaN a = true ↔ a.toNat / 2 ^ 52 % 2 ^ 11 = 2047 ∧ a.toNat % 2 ^ 52 ≠ 0 := by
  rw [isNaN_iff, expField_toNat, mantField_toNat]

/-- Composing at exponent 1024 sets the whole exponent field, so that a non-zero mantissa makes a NaN. -/
theorem isNaN_composed_1024 (sign : Bool) {m : BitVec 52} (hm : m ≠ 0) :
    isNaN (composed sign 1024 m.toNat) = true := by
  have hm0 : m.toNat ≠ 0 := fun h => hm (BitVec.eq_of_toNat_eq h)
  rw [isNaN_iff, expField_composed, mantField_composed, Nat.mod_eq_of_lt m.isLt]
  exact ⟨rfl, hm0⟩

/-- A NaN is a sign and a non-zero mantissa, its exponent field being fixed. -/
def nanEquivSignMantissa : { a : FloatValue // isNaN a = true } ≃ Bool × { m : BitVec 52 // m ≠ 0 } where
  toFun a := (signBit a.1, ⟨mantField a.1, (mantField_ne_zero_iff a.1).mpr ((isNaN_iff_bits a.1).mp a.2).2⟩)
  invFun x := ⟨composed x.1 1024 x.2.1.toNat, isNaN_composed_1024 x.1 x.2.2⟩
  left_inv := fun ⟨a, ha⟩ => by
    obtain ⟨hexp, -⟩ := (isNaN_iff a).mp ha
    refine Subtype.ext (ext_fields ?_ ?_ ?_)
    · exact signBit_composed ..
    · exact (expField_composed ..).trans hexp.symm
    · exact (mantField_composed ..).trans (Nat.mod_eq_of_lt (mantField a).isLt)
  right_inv := fun ⟨sign, m, hm⟩ => by
    refine Prod.ext (signBit_composed ..) (Subtype.ext (BitVec.eq_of_toNat_eq ?_))
    exact (mantField_composed ..).trans (Nat.mod_eq_of_lt m.isLt)

theorem natCard_nonzero_mantissas : Nat.card { m : BitVec 52 // m ≠ 0 } = 2 ^ 52 - 1 := by
  have hall : Nat.card (BitVec 52) = 2 ^ 52 := (Nat.card_congr BitVec.equivFin.toEquiv).trans (Nat.card_fin _)
  have hsplit := Nat.card_congr (Equiv.optionSubtypeNe (0 : BitVec 52))
  rw [Finite.card_option, hall] at hsplit
  omega

theorem natCard_isNaN : Nat.card { a : FloatValue // isNaN a = true } = 2 ^ 53 - 2 := by
  rw [Nat.card_congr nanEquivSignMantissa, Nat.card_prod, natCard_nonzero_mantissas, Nat.card_eq_fintype_card,
    Fintype.card_bool]
  norm_num

/-- Settles O28: two signs times 2^52 − 1 non-zero mantissas. -/
theorem naNPatternsCounted : Obligations.NaNPatternsCounted := ⟨isNaN_iff_toNat, natCard_isNaN⟩

/-! ### NANPROP -/

/-- The operand NANPROP returns, before its quiet bit is forced, when one of the two is a NaN (R68). -/
def selectedNaN (a b : FloatValue) : FloatValue :=
  if isSignalingNaN b = true ∧ isSignalingNaN a = false then b else if isNaN a = true then a else b

theorem nanPropagated_eq_none {a b : FloatValue} (ha : isNaN a = false) (hb : isNaN b = false) :
    nanPropagated a b = none := by
  simp [nanPropagated, ha, hb]

theorem nanPropagated_eq_some {a b : FloatValue} (h : isNaN a = true ∨ isNaN b = true) :
    nanPropagated a b = some (quieted (selectedNaN a b)) := by
  have hNaN : (!isNaN a && !isNaN b) = false := by rcases h with h | h <;> simp [h]
  simp only [nanPropagated, selectedNaN, hNaN, Bool.false_eq_true, if_false, Bool.and_eq_true, Bool.not_eq_true']
  split_ifs <;> rfl

theorem execNanprop_of_none {s : State} (h : nanPropagated s.inp.a s.inp.b = none) :
    exec .nanprop s = .next (s.drive { s.undriven with hit := false }) := by
  simp only [exec, execNanprop, h]

theorem execNanprop_of_some {s : State} {v : FloatValue} (h : nanPropagated s.inp.a s.inp.b = some v) :
    exec .nanprop s = .next (s.drive { s.undriven with hit := true, r := v }) := by
  simp only [exec, execNanprop, h]

/-- Settles O31, from the selection named once and the bitwise rule for `quieted`. -/
theorem nanpropSelectsAndQuiets : Obligations.NanpropSelectsAndQuiets := by
  refine fun s => ⟨fun ha hb => ?_, fun h => ?_⟩
  · exact completes_of_drive _ (execNanprop_of_none (nanPropagated_eq_none ha hb)) rfl
  · exact completes_of_drive _ (execNanprop_of_some (nanPropagated_eq_some h))
      ⟨rfl, selectedNaN s.inp.a s.inp.b, rfl, quietBit_quieted _, fun _ hk => getLsbD_quieted_of_ne _ hk⟩

end Sys2Proof.Machine
end

section
/-! PROOFS. The rounding step (42_normalizer_rounder.md): how the remainder decides between truncating and
incrementing (R85). -/

namespace Sys2Proof.Machine

theorem roundedKept_above {pn shift : Nat} (h : 2 ^ (shift - 1) < pn % 2 ^ shift) :
    roundedKept pn shift = pn / 2 ^ shift + 1 := by
  rcases roundedKept_cases pn shift with ⟨-, hbelow | ⟨htie, -⟩⟩ | ⟨hup, -⟩
  · omega
  · omega
  · exact hup

theorem roundedKept_below {pn shift : Nat} (h : pn % 2 ^ shift < 2 ^ (shift - 1)) :
    roundedKept pn shift = pn / 2 ^ shift := by
  rcases roundedKept_cases pn shift with ⟨hdown, -⟩ | ⟨-, habove | ⟨htie, -⟩⟩
  · exact hdown
  · omega
  · omega

/-- At a tie an even quotient stays and an odd one is incremented. -/
theorem roundedKept_tie_even {pn shift : Nat} (h : pn % 2 ^ shift = 2 ^ (shift - 1)) :
    roundedKept pn shift % 2 = 0 := by
  rcases roundedKept_cases pn shift with ⟨hdown, hbelow | ⟨-, heven⟩⟩ | ⟨hup, habove | ⟨-, hodd⟩⟩
  · omega
  · rw [hdown, heven]
  · omega
  · rw [hup, Nat.add_mod, hodd]

/-- Rounding never moves further than to the next integer above the quotient. -/
theorem roundedKept_neighbour (pn shift : Nat) :
    roundedKept pn shift = pn / 2 ^ shift ∨ roundedKept pn shift = pn / 2 ^ shift + 1 :=
  (roundedKept_cases pn shift).imp And.left And.left

/-- Settles O38: one rule for each place of the remainder against the midpoint. -/
theorem keptRoundsToNearestEven : Obligations.KeptRoundsToNearestEven := fun pn shift _ =>
  ⟨roundedKept_above, roundedKept_tie_even, fun _ => roundedKept_neighbour pn shift, roundedKept_below⟩

end Sys2Proof.Machine
end

section
/-! PROOFS. MUL on special operands (43_fp_multiplier.md): a NaN operand ends it with what NANPROP returns (R102), an
infinite one with `CANONICAL_NAN` or an infinity (R104). -/

namespace Sys2Proof.Machine

/-! ### NaN operands -/

/-- Whichever operand is selected, it is a NaN. -/
theorem isNaN_selectedNaN {a b : FloatValue} (h : isNaN a = true ∨ isNaN b = true) :
    isNaN (selectedNaN a b) = true := by
  unfold selectedNaN
  split_ifs with hsignaling ha
  · exact (Bool.and_eq_true_iff.mp hsignaling.1).1
  · exact ha
  · exact h.resolve_left ha

theorem product_of_isNaN (p : Config.Params) {a b : FloatValue} (h : isNaN a = true ∨ isNaN b = true) :
    product p a b = quieted (selectedNaN a b) := by
  simp only [product, nanPropagated_eq_some h]

/-- Settles O44: MUL and NANPROP both drive the quieted selected operand. -/
theorem mulPropagatesNaNs : Obligations.MulPropagatesNaNs := fun s h =>
  completes_of_driveR _ (execMul_eq s)
    ⟨(congrArg isQuietNaN (product_of_isNaN s.params h)).trans (isQuietNaN_quieted (isNaN_selectedNaN h)),
      completes_of_drive _ (execNanprop_of_some (nanPropagated_eq_some h))
        ⟨rfl, (product_of_isNaN s.params h).symm⟩⟩

/-! ### Infinite operands -/

theorem product_of_not_isNaN (p : Config.Params) {a b : FloatValue} (ha : isNaN a = false) (hb : isNaN b = false) :
    product p a b = mulNonNaN p a b := by
  simp only [product, nanPropagated_eq_none ha hb]

theorem mulNonNaN_infinity_zero (p : Config.Params) {a b : FloatValue}
    (hinf : isInfinity a = true ∨ isInfinity b = true) (hzero : isZero a = true ∨ isZero b = true) :
    mulNonNaN p a b = canonicalNaN p := by
  rw [mulNonNaN, if_pos (Bool.or_eq_true_iff.mpr hinf), if_pos (Bool.or_eq_true_iff.mpr hzero)]

theorem mulNonNaN_infinity_nonzero (p : Config.Params) {a b : FloatValue}
    (hinf : isInfinity a = true ∨ isInfinity b = true) (ha : isZero a = false) (hb : isZero b = false) :
    mulNonNaN p a b = infinityOf (resultSign a b) := by
  rw [mulNonNaN, if_pos (Bool.or_eq_true_iff.mpr hinf), if_neg (by simp [ha, hb])]

/-- The weight of the result's sign bit: clear exactly when the operand signs agree (R103). -/
theorem resultSign_weight (a b : FloatValue) :
    (if resultSign a b then 2 ^ 63 else 0) = if a.getLsbD 63 = b.getLsbD 63 then 0 else 2 ^ 63 := by
  unfold resultSign signBit
  cases a.getLsbD 63 <;> cases b.getLsbD 63 <;> rfl

/-- Settles O47: without a NaN the infinity step is the first, and its zero sub-case decides. -/
theorem mulOfInfinities : Obligations.MulOfInfinities := by
  refine fun s ha hb hinf => ⟨fun hzero => ?_, fun hza hzb => ?_⟩
  · refine completes_of_driveR _ (execMul_eq s) ?_
    rw [State.driveR_out_r, product_of_not_isNaN _ ha hb, mulNonNaN_infinity_zero _ hinf hzero]
  · refine completes_of_driveR _ (execMul_eq s) ?_
    rw [State.driveR_out_r, product_of_not_isNaN _ ha hb, mulNonNaN_infinity_nonzero _ hinf hza hzb,
      infinityOf_toNat, resultSign_weight]

end Sys2Proof.Machine
end

section
/-! PROOFS. Decoding and encoding (30_encoding.md R40 to R43, D2, D3): the selector table read both ways, and a call
presented on the ports and read back. -/

namespace Sys2Proof.Machine

/-! ### The selector -/

theorem decode_encode (i : Instr) : decode (encode i) = .ok i := by
  cases i <;> rfl

theorem encode_of_decode {op : Selector} {i : Instr} (h : decode op = .ok i) : encode i = op := by
  unfold decode at h
  split at h <;> rename_i hop <;> cases h
  all_goals exact BitVec.eq_of_toNat_eq hop.symm

/-- Everything the decoder can answer: an operation below 12, the selector's name from there on (R42, R43). -/
theorem decode_cases (op : Selector) :
    (op.toNat < 12 ∧ ∃ i, decode op = .ok i) ∨
    (12 ≤ op.toNat ∧ decode op = .error (.reservedSelector op)) := by
  unfold decode
  split
  case h_13 =>
    refine .inr ⟨?_, rfl⟩
    simp only [imp_false] at *
    omega
  all_goals exact .inl ⟨by omega, _, rfl⟩

/-- Settles O3: each word is a fixed value of the decoder. -/
theorem selectorTableWords : Obligations.SelectorTableWords := by
  unfold Obligations.SelectorTableWords
  decide

/-- Settles O4. -/
theorem selectorsAndOperationsMatch : Obligations.SelectorsAndOperationsMatch :=
  ⟨decode_encode, fun _ _ h => encode_of_decode h⟩

/-! ### A call on the ports -/

/-- The call of operation `i` on the ports that its row of R42 names, whatever the selector port carries. -/
def readCall (i : Instr) (x : Inputs) : Call :=
  match i with
  | .mul => .mul x.a x.b
  | .decompose => .decompose x.a
  | .compose => .compose x.sIn x.eIn.toInt x.mIn.toNat
  | .classify => .classify x.a
  | .nanprop => .nanprop x.a x.b
  | .canonnan => .canonnan
  | .inf => .inf x.sIn
  | .normround => .normround x.sIn x.eIn.toInt x.pIn.toNat
  | .negate => .negate x.a
  | .cmplt => .cmplt x.a x.b
  | .cmpgt => .cmpgt x.a x.b
  | .cmpeq => .cmpeq x.a x.b

@[simp] theorem instr_readCall (i : Instr) (x : Inputs) : (readCall i x).instr = i := by
  cases i <;> rfl

/-- Reading the ports is decoding the selector and reading that operation's operands. -/
theorem decodeCall_of_decode {x : Inputs} {i : Instr} (h : decode x.op = .ok i) :
    decodeCall x = .ok (readCall i x) := by
  unfold decodeCall
  rw [h]
  cases i <;> rfl

theorem decodeCall_of_error {x : Inputs} {e : DecodeError} (h : decode x.op = .error e) :
    decodeCall x = .error e := by
  unfold decodeCall
  rw [h]

/-- A call read from the ports is that of the decoded selector. -/
theorem exists_decode_of_decodeCall {x : Inputs} {c : Call} (h : decodeCall x = .ok c) :
    ∃ i, decode x.op = .ok i ∧ c = readCall i x := by
  cases hop : decode x.op with
  | ok i => exact ⟨i, rfl, Except.ok.inj (h.symm.trans (decodeCall_of_decode hop))⟩
  | error e => cases h.symm.trans (decodeCall_of_error hop)

@[simp] theorem encodeCall_op (c : Call) (x : Inputs) : (encodeCall c x).op = encode c.instr := by
  cases c <;> rfl

theorem toInt_ofInt_of_exponentFits {e : Int} (h : exponentFits e = true) : (BitVec.ofInt 13 e).toInt = e := by
  obtain ⟨hlo, hhi⟩ : -4096 ≤ e ∧ e ≤ 4095 := by simpa [exponentFits] using h
  rw [BitVec.toInt_ofInt]
  exact Int.bmod_eq_of_le (by omega) (by omega)

theorem exponentFits_toInt (e : BitVec 13) : exponentFits e.toInt = true := by
  have hlo := e.le_toInt
  have hhi := e.toInt_lt
  simp only [exponentFits, Bool.and_eq_true, decide_eq_true_eq]
  omega

/-- Every operand that fits its port is read as it was presented: sign extension undoes the 13-bit truncation. -/
theorem readCall_encodeCall {c : Call} (x : Inputs) (h : c.wellFormed = true) :
    readCall c.instr (encodeCall c x) = c := by
  cases c
  case compose s e m =>
    obtain ⟨he, hm⟩ : exponentFits e = true ∧ m < 2 ^ 64 := by simpa [Call.wellFormed, mantissaFits] using h
    simp only [Call.instr, readCall, encodeCall, toInt_ofInt_of_exponentFits he, BitVec.toNat_ofNat,
      Nat.mod_eq_of_lt hm]
  case normround s we p =>
    obtain ⟨he, hp⟩ : exponentFits we = true ∧ p < 2 ^ 106 := by simpa [Call.wellFormed, productFits] using h
    simp only [Call.instr, readCall, encodeCall, toInt_ofInt_of_exponentFits he, BitVec.toNat_ofNat,
      Nat.mod_eq_of_lt hp]
  all_goals rfl

theorem wellFormed_readCall (i : Instr) (x : Inputs) : (readCall i x).wellFormed = true := by
  cases i
  case compose => simp [readCall, Call.wellFormed, exponentFits_toInt, mantissaFits, x.mIn.isLt]
  case normround => simp [readCall, Call.wellFormed, exponentFits_toInt, productFits, x.pIn.isLt]
  all_goals rfl

/-- Presenting what the ports carry already, the selector's own operation included, changes none of them. -/
theorem encodeCall_readCall {i : Instr} {x : Inputs} (h : encode i = x.op) : encodeCall (readCall i x) x = x := by
  cases i <;> simp [readCall, encodeCall, h]

/-- The call presented is the call read. -/
theorem decodeCall_encodeCall {c : Call} (x : Inputs) (h : c.wellFormed = true) :
    decodeCall (encodeCall c x) = .ok c := by
  have hop : decode (encodeCall c x).op = .ok c.instr := by rw [encodeCall_op, decode_encode]
  rw [decodeCall_of_decode hop, readCall_encodeCall x h]

/-- Settles O5: the selector decodes to the call's operation, and each operand comes back from its port. -/
theorem presentedCallIsReadBack : Obligations.PresentedCallIsReadBack := fun _ x h => decodeCall_encodeCall x h

/-- Settles O6, from the operation the selector decodes to. -/
theorem readCallFitsItsPorts : Obligations.ReadCallFitsItsPorts := by
  intro x c h
  obtain ⟨i, hop, rfl⟩ := exists_decode_of_decodeCall h
  exact ⟨wellFormed_readCall i x, encodeCall_readCall (encode_of_decode hop)⟩

end Sys2Proof.Machine
end

section
/-! PROOFS. The machine as a whole (10_state.md R10 to R19, 30_encoding.md R40, 60_exceptions.md R130): what a step
runs, that its driven outputs are the function view's result, and that nothing else bears on them. -/

namespace Sys2Proof.Machine

/-! ### What a step runs -/

theorem step_of_decode {s : State} {i : Instr} (h : decode s.inp.op = .ok i) : step s = exec i s := by
  simp only [step, h]

theorem step_eq_settle {s : State} {i : Instr} (h : decode s.inp.op = .ok i) : step s = .next s.settle :=
  (step_of_decode h).trans (exec_eq_settle h)

/-- A step that answers a next state answers the settled one. -/
theorem eq_settle_of_step {s t : State} (h : step s = .next t) : t = s.settle := by
  rcases step_cases s with ⟨i, -, hs⟩ | ⟨op, -, hs⟩
  · exact Host.Outcome.next.inj (h.symm.trans hs)
  · cases h.symm.trans hs

theorem decode_of_decodeTableWord {nbits w : Nat} {i : Instr} (h : decodeTableWord nbits w = some i) :
    decode (selectorOfTableWord nbits w) = .ok i := by
  unfold decodeTableWord at h
  split at h <;> cases h
  assumption

/-- Settles O1: both clauses say that the selector port decodes to `i`. -/
theorem stepRunsSelectedOperation : Obligations.StepRunsSelectedOperation :=
  ⟨fun _ _ h => step_of_decode h, fun _ _ _ _ h => step_of_decode (decode_of_decodeTableWord h)⟩

/-- Settles O2, by what the decoder answers on each side of selector 12. -/
theorem stepIsTotalAndNeverFaults : Obligations.StepIsTotalAndNeverFaults := by
  refine fun s => ⟨fun hlt => ?_, fun hge => ?_, nofun⟩
  · rcases decode_cases s.inp.op with ⟨-, i, hi⟩ | ⟨hge, -⟩
    · exact ⟨_, step_eq_settle hi⟩
    · omega
  · rcases decode_cases s.inp.op with ⟨hlt, -⟩ | ⟨-, he⟩
    · omega
    · simp only [step, he]

/-- Settles O7: every operation drives some outputs and does nothing else. -/
theorem everyOperationCompletesWithItsFrame : Obligations.EveryOperationCompletesWithItsFrame := by
  intro i s
  obtain ⟨o, ho⟩ := exec_drives i s
  exact completes_of_drive o ho trivial

/-! ### The driven outputs are the function view's result -/

/-- The law `exec_visible` for every operation, whatever the selector port carries. -/
theorem callResult_readCall {i : Instr} {s t : State} (h : exec i s = .next t) :
    callResult s.params (readCall i s.inp) = some (visible i t.out) := by
  cases i
  case decompose => cases h; simp [readCall, callResult, visible]
  case nanprop =>
    cases hn : nanPropagated s.inp.a s.inp.b with
    | none =>
      cases h.symm.trans (execNanprop_of_none hn)
      simp [readCall, callResult, visible, hn]
    | some v =>
      cases h.symm.trans (execNanprop_of_some hn)
      simp [readCall, callResult, visible, hn]
  case normround => cases h; simp [readCall, callResult, visible, exponentIn, productIn, s.inp.pIn.isLt]
  all_goals cases h; rfl

/-- The ports an operation's row names determine its call. -/
theorem readCall_eq_of_agreeOn {i : Instr} {x y : Inputs} (h : agreeOn i x y) : readCall i x = readCall i y := by
  cases i <;> simp_all [agreeOn, readCall]

theorem visible_eq_of_readCall_eq {i : Instr} {s t s' t' : State} (hp : s.params = t.params)
    (hc : readCall i s.inp = readCall i t.inp) (hs : exec i s = .next s') (ht : exec i t = .next t') :
    visible i s'.out = visible i t'.out := by
  apply Option.some.inj
  rw [← callResult_readCall hs, ← callResult_readCall ht, hp, hc]

/-- Settles O8: agreement on the named ports makes the two calls one. -/
theorem resultsDependOnlyOnReadPorts : Obligations.ResultsDependOnlyOnReadPorts := by
  intro i s t hp hagree
  obtain ⟨o, ho⟩ := exec_drives i s
  obtain ⟨o', ho'⟩ := exec_drives i t
  exact ⟨_, _, ho, ho', visible_eq_of_readCall_eq hp (readCall_eq_of_agreeOn hagree) ho ho'⟩

/-- Equal inputs and parameters settle to equal driven outputs, whatever the outputs and the count were. -/
theorem visible_settle_eq {i : Instr} {s t : State} (h : decode s.inp.op = .ok i) (hinp : s.inp = t.inp)
    (hp : s.params = t.params) : visible i s.settle.out = visible i t.settle.out :=
  visible_eq_of_readCall_eq hp (by rw [hinp]) (exec_eq_settle h) (exec_eq_settle (hinp ▸ h))

/-- Settles O9: both steps settle. -/
theorem noResultDependsOnEarlierOperations : Obligations.NoResultDependsOnEarlierOperations :=
  fun _ _ _ h hinp hp => ⟨_, _, step_eq_settle h, step_eq_settle (hinp ▸ h), visible_settle_eq h hinp hp⟩

/-- Settles O10: a reset leaves the parameters, and the ports presented after it are the same. -/
theorem resetChangesNoResult : Obligations.ResetChangesNoResult := fun s x _ h =>
  ⟨_, _, step_eq_settle (s := s.withInputs x) h, step_eq_settle (s := s.afterReset.withInputs x) h,
    visible_settle_eq (s := s.withInputs x) (t := s.afterReset.withInputs x) h rfl rfl⟩

/-- Settles O11: a settled state has the inputs and parameters it had. -/
theorem evaluatingAgainReturnsTheSame : Obligations.EvaluatingAgainReturnsTheSame := by
  intro s t i h hstep
  obtain rfl := eq_settle_of_step hstep
  exact ⟨_, step_eq_settle (s := s.settle) h, rfl, visible_settle_eq (s := s.settle) (t := s) h rfl rfl⟩

/-! ### The invariant that outputs follow the inputs -/

/-- Every way the outputs are set leaves them the function of the inputs (R19). -/
theorem settled_settle (s : State) : s.settle.Settled := by
  intro c hc
  obtain ⟨i, hop, rfl⟩ := exists_decode_of_decodeCall hc
  exact exec_visible (s := s) hc (exec_eq_settle (by rw [instr_readCall]; exact hop))

/-- Settles O14: the next state is the settled one. -/
theorem everyStepKeepsOutputsSettled : Obligations.EveryStepKeepsOutputsSettled := by
  intro s t _ h
  obtain rfl := eq_settle_of_step h
  exact settled_settle s

/-- Settles O15: the call presented is the one the step evaluates. -/
theorem portsAgreeWithFunctions : Obligations.PortsAgreeWithFunctions := by
  intro c s h
  have hop : decode (s.present c).inp.op = .ok c.instr := by rw [State.present_inp, encodeCall_op, decode_encode]
  exact ⟨_, step_eq_settle hop, drive_onlyOutputsChanged _ _,
    settled_settle (s.present c) c (decodeCall_encodeCall s.inp h)⟩

/-- The zeros a reset leaves on `op`, `a`, `b` and `r`: MUL of +0 and +0 is +0 under every parameter (R105). -/
theorem settled_afterReset (s : State) : s.afterReset.Settled := by
  intro c hc
  obtain rfl : Call.mul 0 0 = c := Except.ok.inj hc
  rfl

/-- Settles O12. -/
theorem resetLeavesTheNamedValues : Obligations.ResetLeavesTheNamedValues :=
  ⟨rfl, by decide, rfl, rfl, rfl⟩

/-- Settles O13: `State.reset` is what a reset leaves under the default parameters. -/
theorem resetOutputsAreSettled : Obligations.ResetOutputsAreSettled := settled_afterReset State.reset

/-- On settled outputs a step drives what stands there already. -/
theorem visible_step_of_settled {s t : State} {i : Instr} (hs : s.Settled) (h : decode s.inp.op = .ok i)
    (hstep : step s = .next t) : visible i t.out = visible i s.out := by
  obtain rfl := eq_settle_of_step hstep
  have hbefore := hs _ (decodeCall_of_decode h)
  have hafter := settled_settle s _ (decodeCall_of_decode h)
  rw [instr_readCall] at hbefore hafter
  exact Option.some.inj (hafter.symm.trans hbefore)

/-- Settles O55: each of the caller's three ways to change the inputs settles the outputs. -/
theorem outputsFollowTheInputs : Obligations.OutputsFollowTheInputs :=
  ⟨fun _ _ => ⟨settled_settle _, rfl⟩, fun _ _ => settled_settle _, fun _ _ _ => settled_settle _, settled_afterReset,
    fun _ _ _ hs h hstep => visible_step_of_settled hs h hstep⟩

/-! ### The function view -/

/-- Settles O16: NORMROUND alone tests its product. -/
theorem onlyOversizedProductIsRefused : Obligations.OnlyOversizedProductIsRefused := by
  intro p c
  cases c <;> simp [callResult]

/-- Settles O17, from the bits of the class vector and the fields as numbers. -/
theorem pseudoOperationsGiveTheirFields : Obligations.PseudoOperationsGiveTheirFields := by
  intro p a
  obtain ⟨h0, h1, h2, h3, h4, h5, h6⟩ := classVector_bits a
  refine ⟨rfl, congrArg some h0, congrArg some h1, congrArg some h2, congrArg some h3, congrArg some h4,
    congrArg some h5, congrArg some h6, congrArg some (signBit_eq a), congrArg some (decomposed_exponent_eq a),
    congrArg some (mantField_toNat a)⟩

end Sys2Proof.Machine
end

section
/-! PROOFS. The bit encoding (40_bit_encoding.md): COMPOSE as a number and as the inverse of DECOMPOSE (R52, R53),
NEGATE twice and on classes (R54, R67), and the comparisons as an order on magnitudes (R58). -/

namespace Sys2Proof.Machine

/-! ### COMPOSE -/

/-- Settles O19: COMPOSE drives `r` with the composed ports. -/
theorem composeMasksItsPorts : Obligations.ComposeMasksItsPorts := fun s =>
  completes_of_driveR _ rfl (composed_toNat s.inp.sIn (exponentIn s.inp) (mantissaIn s.inp))

/-- Settles O20. -/
theorem composeOfAnyIntegers : Obligations.ComposeOfAnyIntegers := fun _ sign e m =>
  ⟨composed sign e m, rfl, composed_toNat sign e m⟩

/-- The biased exponent of a pattern is in the range that the composer's mask keeps. -/
theorem composed_decomposed (a : FloatValue) :
    composed (decomposed a).sign (decomposed a).exponent (decomposed a).mantissa.toNat = a := by
  have he := (expField a).isLt
  refine ext_fields (signBit_composed ..) ?_ ?_
  · rw [expField_composed]
    simp only [decomposed]
    omega
  · rw [mantField_composed]
    exact Nat.mod_eq_of_lt (mantField a).isLt

/-- Settles O22. -/
theorem composeUndoesDecompose : Obligations.ComposeUndoesDecompose := fun p a =>
  ⟨(decomposed a).sign, (decomposed a).exponent, (decomposed a).mantissa.toNat, rfl,
    by rw [callResult, composed_decomposed]⟩

/-! ### NEGATE -/

theorem negated_negated (a : FloatValue) : negated (negated a) = a :=
  ext_fields (by simp) (by simp) (by simp)

@[simp] theorem quietBit_negated (a : FloatValue) : quietBit (negated a) = quietBit a :=
  getLsbD_negated_of_lt a (by decide)

/-- No class reads the sign. -/
theorem classVector_negated (a : FloatValue) : classVector (negated a) = classVector a := by
  simp [classVector, isZero, isSubnormal, isNormal, isInfinity, isNaN, isQuietNaN, isSignalingNaN]

/-- Settles O24. -/
theorem negateTwiceAndClasses : Obligations.NegateTwiceAndClasses := fun p a =>
  ⟨by rw [callResult, negated_negated], by rw [callResult, callResult, classVector_negated]⟩

/-! ### The grid index as a pattern's place among the magnitudes -/

/-- A pattern is its sign and its grid index. -/
theorem toNat_eq_sign_gridIndex (a : FloatValue) :
    a.toNat = (if signBit a then 2 ^ 63 else 0) + gridIndex a := by
  rw [toNat_eq_fields, gridIndex_eq, Nat.add_assoc]

theorem ext_sign_gridIndex {a b : FloatValue} (hs : signBit a = signBit b) (hg : gridIndex a = gridIndex b) :
    a = b := by
  apply BitVec.eq_of_toNat_eq
  rw [toNat_eq_sign_gridIndex a, toNat_eq_sign_gridIndex b, hs, hg]

theorem toNat_lt_iff_gridIndex_lt {a b : FloatValue} (hs : signBit a = signBit b) :
    a.toNat < b.toNat ↔ gridIndex a < gridIndex b := by
  rw [toNat_eq_sign_gridIndex a, toNat_eq_sign_gridIndex b, hs, Nat.add_lt_add_iff_left]

theorem isNaN_false_iff_gridIndex (a : FloatValue) : isNaN a = false ↔ gridIndex a ≤ infinityIndex := by
  have he := (expField a).isLt
  have hm := (mantField a).isLt
  rw [← Bool.not_eq_true, isNaN_iff, gridIndex_eq, infinityIndex]
  omega

theorem isInfinity_iff_gridIndex (a : FloatValue) : isInfinity a = true ↔ gridIndex a = infinityIndex := by
  have he := (expField a).isLt
  have hm := (mantField a).isLt
  rw [isInfinity_iff, gridIndex_eq, infinityIndex]
  omega

theorem gridMagnitude_gridIndex (a : FloatValue) : gridMagnitude (gridIndex a) = magnitude a := by
  rw [gridIndex_eq, magnitude_fields]

theorem magnitude_lt_iff (a b : FloatValue) : magnitude a < magnitude b ↔ gridIndex a < gridIndex b := by
  rw [← gridMagnitude_gridIndex, ← gridMagnitude_gridIndex, gridMagnitude_strictMono.lt_iff_lt]

theorem magnitude_inj {a b : FloatValue} (h : magnitude a = magnitude b) : gridIndex a = gridIndex b := by
  rw [← gridMagnitude_gridIndex, ← gridMagnitude_gridIndex] at h
  exact gridMagnitude_strictMono.injective h

/-! ### The comparisons -/

/-- Without NaNs the infinities hold the last index, as ⊤ is above every magnitude. -/
theorem extendedMagnitude_lt_iff {a b : FloatValue} (ha : isNaN a = false) (hb : isNaN b = false) :
    extendedMagnitude a < extendedMagnitude b ↔ gridIndex a < gridIndex b := by
  rw [isNaN_false_iff_gridIndex] at ha hb
  have hia := isInfinity_iff_gridIndex a
  have hib := isInfinity_iff_gridIndex b
  unfold extendedMagnitude
  by_cases ia : isInfinity a = true
  · rw [if_pos ia]
    have := hia.mp ia
    exact iff_of_false not_top_lt (by omega)
  · rw [if_neg ia]
    by_cases ib : isInfinity b = true
    · rw [if_pos ib]
      have := hib.mp ib
      have := mt hia.mpr ia
      exact iff_of_true (WithTop.coe_lt_top _) (by omega)
    · rw [if_neg ib, WithTop.coe_lt_coe, magnitude_lt_iff]

/-- Patterns of one sign that denote the same value are the same pattern. -/
theorem eq_of_denoted_eq {a b : FloatValue} (ha : isNaN a = false) (hb : isNaN b = false)
    (hs : signBit a = signBit b) (h : denoted a = denoted b) : a = b := by
  refine ext_sign_gridIndex hs ?_
  simp only [denoted, ha, hb, hs, Bool.false_eq_true, if_false] at h
  by_cases ia : isInfinity a = true <;> by_cases ib : isInfinity b = true
  · rw [(isInfinity_iff_gridIndex a).mp ia, (isInfinity_iff_gridIndex b).mp ib]
  · simp [ia, ib] at h
  · simp [ia, ib] at h
  · apply magnitude_inj
    by_cases hneg : signBit b = true <;> simpa [ia, ib, hneg] using h

/-- Settles O26: on one sign the pattern, the grid index and the magnitude are ordered alike. -/
theorem comparisonsOrderMagnitudes : Obligations.ComparisonsOrderMagnitudes := by
  refine fun s ha hb hs => ⟨completes_of_driveFlag _ rfl ?_, completes_of_driveFlag _ rfl ?_,
    completes_of_driveFlag _ rfl ?_⟩
  · exact (rawLess_iff _ _).trans ((toNat_lt_iff_gridIndex_lt hs).trans (extendedMagnitude_lt_iff ha hb).symm)
  · exact (rawGreater_iff _ _).trans ((toNat_lt_iff_gridIndex_lt hs.symm).trans (extendedMagnitude_lt_iff hb ha).symm)
  · exact (rawEqual_iff _ _).trans ⟨congrArg denoted, eq_of_denoted_eq ha hb hs⟩

end Sys2Proof.Machine
end

section
/-! PROOFS. The classes (41_special_values.md R60 to R67) as conditions on the pattern's number, their partition, and
CANONNAN (R70). -/

namespace Sys2Proof.Machine

/-! ### The predicates on the pattern as a number -/

theorem isZero_iff_toNat (a : FloatValue) :
    isZero a = true ↔ a.toNat / 2 ^ 52 % 2 ^ 11 = 0 ∧ a.toNat % 2 ^ 52 = 0 := by
  rw [isZero_iff, expField_toNat, mantField_toNat]

theorem isSubnormal_iff_toNat (a : FloatValue) :
    isSubnormal a = true ↔ a.toNat / 2 ^ 52 % 2 ^ 11 = 0 ∧ a.toNat % 2 ^ 52 ≠ 0 := by
  rw [isSubnormal_iff, expField_toNat, mantField_toNat]

theorem isNormal_iff_toNat (a : FloatValue) :
    isNormal a = true ↔ 1 ≤ a.toNat / 2 ^ 52 % 2 ^ 11 ∧ a.toNat / 2 ^ 52 % 2 ^ 11 ≤ 2046 := by
  rw [isNormal_iff, expField_toNat]

theorem isInfinity_iff_toNat (a : FloatValue) :
    isInfinity a = true ↔ a.toNat / 2 ^ 52 % 2 ^ 11 = 2047 ∧ a.toNat % 2 ^ 52 = 0 := by
  rw [isInfinity_iff, expField_toNat, mantField_toNat]

theorem isQuietNaN_iff_toNat (a : FloatValue) :
    isQuietNaN a = true ↔ (a.toNat / 2 ^ 52 % 2 ^ 11 = 2047 ∧ a.toNat % 2 ^ 52 ≠ 0) ∧ a.getLsbD 51 = true := by
  rw [isQuietNaN, Bool.and_eq_true, isNaN_iff_toNat, quietBit]

/-- The quiet bit is the mantissa's highest, so that where it is clear the lower 51 bits decide. -/
theorem isSignalingNaN_iff_toNat (a : FloatValue) : isSignalingNaN a = true ↔
    a.toNat / 2 ^ 52 % 2 ^ 11 = 2047 ∧ a.getLsbD 51 = false ∧ a.toNat % 2 ^ 51 ≠ 0 := by
  have hq : a.getLsbD 51 = decide (2 ^ 51 ≤ a.toNat % 2 ^ 52) := quietBit_eq a
  rw [isSignalingNaN, Bool.and_eq_true, isNaN_iff_toNat, Bool.not_eq_true', quietBit, hq, decide_eq_false_iff_not]
  omega

/-! ### The exact patterns -/

/-- R60: the two zeros. -/
theorem isZero_iff_pattern (a : FloatValue) :
    isZero a = true ↔ a = 0x0000000000000000#64 ∨ a = 0x8000000000000000#64 := by
  rw [isZero_iff_toNat]
  bv_omega

/-- R61: the subnormals of either sign. -/
theorem isSubnormal_iff_range (a : FloatValue) :
    isSubnormal a = true ↔ 1 ≤ a.toNat % 2 ^ 63 ∧ a.toNat % 2 ^ 63 ≤ 0x000FFFFFFFFFFFFF := by
  rw [isSubnormal_iff_toNat]
  omega

/-- R63: the two infinities. -/
theorem isInfinity_iff_pattern (a : FloatValue) :
    isInfinity a = true ↔ a = 0x7FF0000000000000#64 ∨ a = 0xFFF0000000000000#64 := by
  rw [isInfinity_iff_toNat]
  bv_omega

/-- Settles O27: each bit of the class vector is its predicate, read as a number or as patterns. -/
theorem classifyReadsTheFields : Obligations.ClassifyReadsTheFields := by
  intro s
  obtain ⟨h0, h1, h2, h3, h4, h5, h6⟩ := classVector_bits s.inp.a
  refine completes_of_drive _ rfl ?_
  simp only [State.drive_out, h0, h1, h2, h3, h4, h5, h6]
  exact ⟨isZero_iff_toNat _, isZero_iff_pattern _, isSubnormal_iff_toNat _, isSubnormal_iff_range _,
    isNormal_iff_toNat _, isInfinity_iff_toNat _, isInfinity_iff_pattern _, isNaN_iff_toNat _, isQuietNaN_iff_toNat _,
    isSignalingNaN_iff_toNat _⟩

/-! ### The partition -/

/-- The class bit that is set among `cls[4:0]`, from the two fields. -/
def classIndex (a : FloatValue) : Nat :=
  if (expField a).toNat = 0 then if (mantField a).toNat = 0 then 0 else 1
  else if (expField a).toNat ≤ 2046 then 2
  else if (mantField a).toNat = 0 then 3 else 4

theorem classIndex_lt (a : FloatValue) : classIndex a < 5 := by
  unfold classIndex
  split_ifs <;> decide

/-- Among the first five bits the class vector has exactly the one of the class. -/
theorem classVector_bit_iff (a : FloatValue) {k : Nat} (hk : k < 5) :
    (classVector a).getLsbD k = true ↔ k = classIndex a := by
  obtain ⟨h0, h1, h2, h3, h4, -, -⟩ := classVector_bits a
  have he := (expField a).isLt
  unfold classIndex
  interval_cases k
  all_goals simp only [h0, h1, h2, h3, h4, isZero_iff, isSubnormal_iff, isNormal_iff, isInfinity_iff, isNaN_iff]
  all_goals split_ifs <;> simp <;> omega

/-- The quiet bit splits the NaNs (R65, R66). -/
theorem isNaN_eq_quiet_or_signaling (a : FloatValue) :
    isNaN a = Bool.or (isQuietNaN a) (isSignalingNaN a) ∧ (isQuietNaN a = false ∨ isSignalingNaN a = false) := by
  unfold isQuietNaN isSignalingNaN
  cases isNaN a <;> cases quietBit a <;> decide

/-- Settles O29. -/
theorem classesPartitionThePatterns : Obligations.ClassesPartitionThePatterns := by
  intro s
  obtain ⟨-, -, -, -, h4, h5, h6⟩ := classVector_bits s.inp.a
  have hlt := classIndex_lt s.inp.a
  refine completes_of_drive _ rfl ⟨⟨classIndex s.inp.a, hlt, ?_, fun j hj => ?_⟩, ?_⟩
  · exact (classVector_bit_iff s.inp.a hlt).mpr rfl
  · exact (classVector_bit_iff s.inp.a hj).mp
  · simp only [State.drive_out, h4, h5, h6]
    exact isNaN_eq_quiet_or_signaling s.inp.a

/-! ### CANONNAN -/

theorem isQuietNaN_canonicalNaN (p : Config.Params) : isQuietNaN (canonicalNaN p) = true := by
  have hp := p.canonicalNaN.payload.isLt
  have hq : (canonicalNaN p).getLsbD 51 = decide (2 ^ 51 ≤ (canonicalNaN p).toNat % 2 ^ 52) := quietBit_eq _
  rw [isQuietNaN_iff_toNat, hq, canonicalNaN_toNat, decide_eq_true_eq]
  cases p.canonicalNaN.sign <;> simp only [if_true, Bool.false_eq_true, if_false] <;> omega

/-- The parameters whose canonical NaN has the sign and the lower 51 bits of `q`. -/
def paramsOfNaN (q : FloatValue) : Config.Params :=
  { Config.defaults with canonicalNaN := { sign := signBit q, payload := q.extractLsb' 0 51 } }

theorem canonicalNaN_paramsOfNaN {q : FloatValue} (h : isQuietNaN q = true) : canonicalNaN (paramsOfNaN q) = q := by
  obtain ⟨⟨he, -⟩, hbit⟩ := (isQuietNaN_iff_toNat q).mp h
  have hquiet : 2 ^ 51 ≤ q.toNat % 2 ^ 52 := of_decide_eq_true ((quietBit_eq q).symm.trans hbit)
  have hsign : (paramsOfNaN q).canonicalNaN.sign = signBit q := rfl
  have hpayload : (paramsOfNaN q).canonicalNaN.payload.toNat = q.toNat % 2 ^ 51 := by simp [paramsOfNaN]
  have hfields := toNat_eq_fields q
  rw [expField_toNat, mantField_toNat, he] at hfields
  apply BitVec.eq_of_toNat_eq
  rw [canonicalNaN_toNat, hsign, hpayload]
  omega

/-- Settles O32. -/
theorem canonnanReturnsTheParameter : Obligations.CanonnanReturnsTheParameter :=
  ⟨fun s => completes_of_driveR _ rfl ⟨isQuietNaN_canonicalNaN s.params, canonicalNaN_toNat s.params⟩,
    fun q h => ⟨paramsOfNaN q, canonicalNaN_paramsOfNaN h⟩, by decide⟩

end Sys2Proof.Machine
end

section
/-! PROOFS. NORMROUND (42_normalizer_rounder.md): normalisation keeps the number (R82, R117), overflow and underflow as
magnitudes (R83, R84), the ranges of the rounding step (R84, R86), the two `ROUND_CARRY` settings (R86, D5) and the
closed form (R88). -/

namespace Sys2Proof.Machine

/-! ### NORMROUND by the branch it takes -/

theorem normRounded_zero (rc : Config.RoundCarry) (sign : Bool) (we : Int) :
    normRounded rc sign we 0 = signedZero sign := if_pos rfl

theorem normRounded_of_overflow (rc : Config.RoundCarry) (sign : Bool) {we : Int} {p : Nat} (h0 : 0 < p)
    (h : 1024 ≤ (normalised we p).we) : normRounded rc sign we p = infinityOf sign := by
  rw [normRounded, if_neg h0.ne', finishNormalised, if_pos h]

theorem normRounded_of_underflow (rc : Config.RoundCarry) (sign : Bool) {we : Int} {p : Nat} (h0 : 0 < p)
    (h : (normalised we p).we < -1075) : normRounded rc sign we p = signedZero sign := by
  have hg : roundingOf (normalised we p) = none := by
    rw [roundingOf, if_pos (by omega), if_pos h]
  rw [normRounded, if_neg h0.ne', finishNormalised, if_neg (by omega), hg]

theorem normRounded_of_rounding (rc : Config.RoundCarry) (sign : Bool) {we : Int} {p : Nat} {g : Rounding}
    (h0 : 0 < p) (h : (normalised we p).we < 1024) (hg : roundingOf (normalised we p) = some g) :
    normRounded rc sign we p = roundAndCompose rc sign (normalised we p).pn g := by
  rw [normRounded, if_neg h0.ne', finishNormalised, if_neg (by omega), hg]

/-- Settles O34. -/
theorem normroundOfZeroProduct : Obligations.NormroundOfZeroProduct := by
  intro s h
  have hp : s.inp.pIn.toNat = 0 := congrArg BitVec.toNat h
  refine completes_of_driveR _ (execNormround_eq s) ?_
  rw [State.driveR_out_r, hp, normRounded_zero, signedZero_toNat]

/-! ### Normalisation -/

/-- R82 as a number: the exponent gained is the shift applied, the deferred one included. -/
theorem inputMagnitude_eq_normalised {we : Int} {p : Nat} (h0 : 0 < p) (h : p < 2 ^ 106) :
    inputMagnitude we p =
      ((normalised we p).pn : ℚ) * (2 : ℚ) ^ ((normalised we p).we - 104 - (normalised we p).pre) := by
  have hl := log2_le_105 h0 h
  have hpre : Nat.log2 p ≤ 104 + (normalised we p).pre := by
    rw [normalised_pre we h0 h]; split <;> omega
  rw [normalised_pn we h0 h, normalised_we we h0 h, inputMagnitude, Nat.cast_mul, Nat.cast_pow, Nat.cast_ofNat,
    mul_assoc, ← zpow_natCast, ← zpow_add₀ (by norm_num)]
  congr 2
  omega

/-- The exponent of the normalised product is that of the number it denotes. -/
theorem inputMagnitude_bounds {we : Int} {p : Nat} (h0 : 0 < p) (h : p < 2 ^ 106) :
    (2 : ℚ) ^ (normalised we p).we ≤ inputMagnitude we p ∧
      inputMagnitude we p < (2 : ℚ) ^ ((normalised we p).we + 1) := by
  obtain ⟨hlo, hhi⟩ := normalised_pn_bounds we h0 h
  rw [inputMagnitude_eq_normalised h0 h]
  generalize normalised we p = n at *
  have hu : (0 : ℚ) < (2 : ℚ) ^ (n.we - 104 - n.pre) := by positivity
  have scale (k : Nat) : (2 : ℚ) ^ (n.we + k - 104 - n.pre) = ((2 ^ k : Nat) : ℚ) * (2 : ℚ) ^ (n.we - 104 - n.pre) := by
    rw [Nat.cast_pow, Nat.cast_ofNat, ← zpow_natCast, ← zpow_add₀ (by norm_num)]
    congr 1
    omega
  have elo : n.we = n.we + ((104 + n.pre : Nat) : Int) - 104 - n.pre := by omega
  have ehi : n.we + 1 = n.we + ((105 + n.pre : Nat) : Int) - 104 - n.pre := by omega
  constructor
  · conv_lhs => rw [elo, scale]
    exact mul_le_mul_of_nonneg_right (by exact_mod_cast hlo) hu.le
  · rw [ehi, scale]
    exact mul_lt_mul_of_pos_right (by exact_mod_cast hhi) hu

theorem normalised_pre_eq_testBit {we : Int} {p : Nat} (h0 : 0 < p) (h : p < 2 ^ 106) :
    (normalised we p).pre = if p.testBit 105 then 1 else 0 := by
  simp only [normalised_pre we h0 h, testBit_105 h0 h, decide_eq_true_eq]

/-- Settles O35. -/
theorem normalisationKeepsTheNumber : Obligations.NormalisationKeepsTheNumber := by
  intro we p h0 h
  obtain ⟨hlo, hhi⟩ := normalised_pn_bounds we h0 h
  exact ⟨normalised_pre_eq_testBit h0 h, hlo, hhi, inputMagnitude_eq_normalised h0 h, inputMagnitude_bounds h0 h⟩

/-- The left shift of branch 2, free of the register's width: to the leading bit at 104. -/
theorem leftAmount_eq {w p : Nat} (hw : 106 ≤ w) (h0 : 0 < p) (h : p < 2 ^ 106) :
    leftAmount w p = 104 - Nat.log2 p := by
  have hl := log2_le_105 h0 h
  rw [leftAmount, clz, if_neg h0.ne']
  omega

/-- Settles O43: the width enters only through the left shift. -/
theorem productRegisterWidthIsUnobservable : Obligations.ProductRegisterWidthIsUnobservable := by
  intro w we p hw h0 h
  rw [normalised, normalisedAt, normalisedAt, leftAmount_eq hw h0 h, leftAmount_eq le_rfl h0 h]

/-! ### Overflow and underflow -/

theorem normalised_we_ge_of_overflow {we : Int} {p : Nat} (h0 : 0 < p) (h : p < 2 ^ 106)
    (hbig : (2 : ℚ) ^ (1024 : Int) ≤ inputMagnitude we p) : 1024 ≤ (normalised we p).we := by
  have := (zpow_lt_zpow_iff_right₀ (by norm_num)).mp (hbig.trans_lt (inputMagnitude_bounds h0 h).2)
  omega

theorem normalised_we_lt_of_underflow {we : Int} {p : Nat} (h0 : 0 < p) (h : p < 2 ^ 106)
    (hsmall : inputMagnitude we p < (2 : ℚ) ^ (-1075 : Int)) : (normalised we p).we < -1075 :=
  (zpow_lt_zpow_iff_right₀ (by norm_num)).mp ((inputMagnitude_bounds h0 h).1.trans_lt hsmall)

/-- Settles O36: the magnitude's exponent is the one that R83 and R84 test. -/
theorem normroundOverflowAndUnderflow : Obligations.NormroundOverflowAndUnderflow := by
  intro s hp
  have h0 := BitVec.toNat_pos_of_ne_zero hp
  have h := s.inp.pIn.isLt
  refine ⟨fun hbig => ?_, fun hsmall => ?_⟩
  · refine completes_of_driveR _ (execNormround_eq s) ?_
    rw [State.driveR_out_r, normRounded_of_overflow _ _ h0 (normalised_we_ge_of_overflow h0 h hbig), infinityOf_toNat]
  · refine completes_of_driveR _ (execNormround_eq s) ?_
    rw [State.driveR_out_r, normRounded_of_underflow _ _ h0 (normalised_we_lt_of_underflow h0 h hsmall),
      signedZero_toNat]

/-! ### The ranges of the rounding step -/

/-- The exponent R84 hands on, and the kept bits R85 makes of the product, in the two ranges of R84. -/
theorem rounding_ranges {we : Int} {p : Nat} {g : Rounding} (h0 : 0 < p) (h : p < 2 ^ 106)
    (hlt : (normalised we p).we < 1024) (hg : roundingOf (normalised we p) = some g) :
    (g.we = -1023 ∧ roundedKept (normalised we p).pn g.shift ≤ 2 ^ 52) ∨
    (-1023 < g.we ∧ g.we ≤ 1023 ∧ 2 ^ 52 ≤ roundedKept (normalised we p).pn g.shift ∧
      roundedKept (normalised we p).pn g.shift ≤ 2 ^ 53) := by
  obtain ⟨-, -, hsub, hnorm⟩ := roundingOf_bounds h0 h hg
  have hup := roundedKept_le (normalised we p).pn g.shift
  have hdown := le_roundedKept (normalised we p).pn g.shift
  rcases le_or_gt (normalised we p).we (-1023) with hwe | hwe
  · obtain ⟨he, hq, -⟩ := hsub hwe
    exact .inl ⟨he, by omega⟩
  · obtain ⟨he, hq1, hq2, -⟩ := hnorm hwe
    exact .inr ⟨by omega, by omega, by omega, by omega⟩

theorem carriedExponent_bounds (rc : Config.RoundCarry) (we : Int) (kept : Nat) :
    we ≤ carriedExponent rc we kept ∧ carriedExponent rc we kept ≤ we + 1 := by
  unfold carriedExponent
  split <;> omega

/-- Settles O37, from the ranges R84 leaves and one more for the carry. -/
theorem roundingStaysInRange : Obligations.RoundingStaysInRange := by
  intro rc we p g h0 h hlt hg
  obtain ⟨hs1, hs2, hsub, hnorm⟩ := roundingOf_bounds h0 h hg
  obtain ⟨hc1, hc2⟩ := carriedExponent_bounds rc g.we (roundedKept (normalised we p).pn g.shift)
  have hranges := rounding_ranges h0 h hlt hg
  simp only [Nat.shiftRight_eq_div_pow]
  refine ⟨hs1, hs2, fun hwe => ?_, fun hwe => ?_, by omega, by omega, by omega⟩
  · obtain ⟨he, hq, -⟩ := hsub hwe
    exact ⟨he, hq⟩
  · obtain ⟨he, hq1, hq2, -⟩ := hnorm hwe
    exact ⟨he, hq1, hq2⟩

/-! ### The two settings of `ROUND_CARRY` -/

theorem composed_eq_of_mod_eq_zero (sign : Bool) (e : Int) {m : Nat} (h : m % 2 ^ 52 = 0) :
    composed sign e m = composed sign e 0 :=
  ext_fields (by simp) (by simp) (by rw [mantField_composed, mantField_composed, h, Nat.zero_mod])

theorem carriesOut_iff (we : Int) (kept : Nat) :
    carriesOut we kept = true ↔ kept = 2 ^ 53 ∨ (we = -1023 ∧ kept = 2 ^ 52) := decide_eq_true_iff

/-- A carry leaves the 52 mantissa bits clear. -/
theorem mod_eq_zero_of_carriesOut {we : Int} {kept : Nat} (h : carriesOut we kept = true) : kept % 2 ^ 52 = 0 := by
  rcases (carriesOut_iff we kept).mp h with rfl | ⟨-, rfl⟩ <;> rfl

theorem roundAndCompose_drop (sign : Bool) (pn : Nat) (g : Rounding) :
    roundAndCompose .drop sign pn g = composed sign g.we (roundedKept pn g.shift) := by
  rw [roundAndCompose, carriedExponent_drop]

theorem roundAndCompose_propagate_of_carry {sign : Bool} {pn : Nat} {g : Rounding}
    (h : carriesOut g.we (roundedKept pn g.shift) = true) :
    roundAndCompose .propagate sign pn g = composed sign (g.we + 1) (roundedKept pn g.shift) := by
  rw [roundAndCompose, carriedExponent_propagate, if_pos h]

theorem roundAndCompose_propagate_of_no_carry {sign : Bool} {pn : Nat} {g : Rounding}
    (h : ¬ carriesOut g.we (roundedKept pn g.shift) = true) :
    roundAndCompose .propagate sign pn g = composed sign g.we (roundedKept pn g.shift) := by
  rw [roundAndCompose, carriedExponent_propagate, if_neg h]

/-- One more in the exponent shows in the pattern, wherever the composer's mask does not hide it. -/
theorem composed_succ_ne (sign : Bool) {e : Int} (m : Nat) (h1 : -1023 ≤ e) (h2 : e ≤ 1023) :
    composed sign (e + 1) m ≠ composed sign e m := by
  intro h
  have := congrArg (fun a => (expField a).toNat) h
  simp only [expField_composed] at this
  omega

/-- Without a carry both settings compose the same, with one their exponents differ by one. -/
theorem roundAndCompose_settings_eq_iff (sign : Bool) {pn : Nat} {g : Rounding} (h1 : -1023 ≤ g.we)
    (h2 : g.we ≤ 1023) : roundAndCompose .propagate sign pn g = roundAndCompose .drop sign pn g ↔
      ¬ carriesOut g.we (roundedKept pn g.shift) = true := by
  rw [roundAndCompose_drop]
  by_cases hc : carriesOut g.we (roundedKept pn g.shift) = true
  · rw [roundAndCompose_propagate_of_carry hc]
    exact iff_of_false (composed_succ_ne sign _ h1 h2) (not_not_intro hc)
  · rw [roundAndCompose_propagate_of_no_carry hc]
    exact iff_of_true rfl hc

/-- With a carry both settings compose a mantissa of zero. -/
theorem roundAndCompose_of_carry (sign : Bool) {pn : Nat} {g : Rounding}
    (h : carriesOut g.we (roundedKept pn g.shift) = true) :
    roundAndCompose .propagate sign pn g = composed sign (g.we + 1) 0 ∧
      roundAndCompose .drop sign pn g = composed sign g.we 0 := by
  have hzero := mod_eq_zero_of_carriesOut h
  rw [roundAndCompose_propagate_of_carry h, roundAndCompose_drop]
  exact ⟨composed_eq_of_mod_eq_zero sign _ hzero, composed_eq_of_mod_eq_zero sign _ hzero⟩

/-- Settles O39. -/
theorem roundCarrySettingsDifferOnCarry : Obligations.RoundCarrySettingsDifferOnCarry := by
  intro sign we p g h0 h hlt hg
  have hranges := rounding_ranges h0 h hlt hg
  dsimp only
  rw [normRounded_of_rounding _ sign h0 hlt hg, normRounded_of_rounding _ sign h0 hlt hg, ← carriesOut_iff]
  refine ⟨roundAndCompose_settings_eq_iff sign (by omega) (by omega), roundAndCompose_of_carry sign, fun hc he => ?_⟩
  rw [(roundAndCompose_of_carry sign hc).1, he]
  exact composed_infinity sign 0 rfl

/-! ### The closed form -/

/-- Left-justifying at bit 105 and shifting right by 53 + `d` rounds as R82 and R84 do with the deferred shift: where no
shift was deferred both are one bit further up. -/
theorem roundedKept_leftJustified {p : Nat} (we : Int) (d : Nat) (h0 : 0 < p) (h : p < 2 ^ 106) :
    roundedKept (p <<< clz 106 p) (53 + d) =
      roundedKept (normalised we p).pn (52 + (normalised we p).pre + d) := by
  have hl := log2_le_105 h0 h
  rw [normalised_pn we h0 h, normalised_pre we h0 h, clz_106 h0, Nat.shiftLeft_eq]
  by_cases hb : Nat.log2 p = 105
  · simp [hb]
  · have hz : 106 - (Nat.log2 p + 1) = 104 - Nat.log2 p + 1 := by omega
    have hd : 53 + d = 52 + d + 1 := by omega
    rw [if_neg hb, hz, hd, Nat.pow_succ, ← Nat.mul_assoc, roundedKept_double _ _ (by omega)]

/-- R88 agrees with R80: its exponent is that of the normalised product, and each of its three branches is one of
R83 and R84. -/
theorem normRounded_eq_closedForm (rc : Config.RoundCarry) (sign : Bool) {we : Int} {p : Nat} (h0 : 0 < p)
    (h : p < 2 ^ 106) : normRounded rc sign we p = closedForm rc sign we p := by
  have hl := log2_le_105 h0 h
  have he : we + 1 - clz 106 p = (normalised we p).we := by
    rw [normalised_we we h0 h, clz_106 h0]; omega
  simp only [closedForm, he]
  by_cases hover : 1024 ≤ (normalised we p).we
  · rw [if_pos hover, normRounded_of_overflow rc sign h0 hover]
  · rw [if_neg hover]
    rcases roundingOf_cases (normalised we p) with ⟨hunder, -⟩ | ⟨hlo, hhi, hg⟩ | ⟨hwe, hg⟩
    · rw [if_pos hunder, normRounded_of_underflow rc sign h0 hunder]
    · have hmax : max 0 (-1022 - (normalised we p).we) = -1022 - (normalised we p).we := max_eq_right (by omega)
      rw [if_neg (by omega), normRounded_of_rounding rc sign h0 (by omega) hg, roundAndCompose,
        roundedKept_leftJustified we _ h0 h, hmax, max_eq_right hhi]
    · have hmax : max 0 (-1022 - (normalised we p).we) = 0 := max_eq_left (by omega)
      rw [if_neg (by omega), normRounded_of_rounding rc sign h0 (by omega) hg, roundAndCompose,
        roundedKept_leftJustified we _ h0 h, hmax, max_eq_left hwe.le]
      rfl

/-- Settles O40. -/
theorem closedFormIsNormround : Obligations.ClosedFormIsNormround :=
  ⟨fun rc sign _ _ h0 h => normRounded_eq_closedForm rc sign h0 h, fun s hp =>
    completes_of_driveR _ (execNormround_eq s)
      (normRounded_eq_closedForm _ _ (BitVec.toNat_pos_of_ne_zero hp) s.inp.pIn.isLt)⟩

end Sys2Proof.Machine
end

section
/-! PROOFS. NORMROUND as rounding on the binary64 grid (42_normalizer_rounder.md R89), and that such a rounding is
unique (30_encoding.md R35). -/

namespace Sys2Proof.Machine

/-! ### The grid and its roundings -/

/-- A point strictly between two that are equally far from `x` is nearer to `x`. -/
theorem abs_sub_lt_of_between {x a b c : ℚ} (hab : a < b) (hbc : b < c) (h : |a - x| = |c - x|) :
    |b - x| < |a - x| := by
  have hx : a - x = -(c - x) := (abs_eq_abs.mp h).resolve_left fun heq => by linarith
  rw [abs_of_neg (by linarith : a - x < 0), abs_lt]
  constructor <;> linarith

/-- Of two indices that both round `x` the lower one is not lower: being tied both are even, so that an index strictly
between them would be nearer. -/
theorem not_lt_of_roundsToNearestEven {x : ℚ} {m n : Nat} (hm : RoundsToNearestEven x m)
    (hn : RoundsToNearestEven x n) : ¬ m < n := by
  intro hlt
  obtain ⟨htie, heven, heven'⟩ :
      |gridMagnitude m - x| = |gridMagnitude n - x| ∧ m % 2 = 0 ∧ n % 2 = 0 := by
    rcases hm.2 n hn.1 hlt.ne' with h | ⟨h, hme⟩ <;> rcases hn.2 m hm.1 hlt.ne with h' | ⟨h', hne⟩
    · exact absurd h h'.asymm
    · exact absurd h h'.not_gt
    · exact absurd h' h.not_gt
    · exact ⟨h, hme, hne⟩
  have hbetween := abs_sub_lt_of_between (gridMagnitude_strictMono (Nat.lt_succ_self m))
    (gridMagnitude_strictMono (show m + 1 < n by omega)) htie
  have hle := hn.1
  rcases hm.2 (m + 1) (by omega) (by omega) with h | ⟨h, -⟩
  · exact absurd h hbetween.asymm
  · exact hbetween.ne' h

theorem roundsToNearestEven_unique {x : ℚ} {m n : Nat} (hm : RoundsToNearestEven x m)
    (hn : RoundsToNearestEven x n) : m = n :=
  le_antisymm (not_lt.mp (not_lt_of_roundsToNearestEven hn hm)) (not_lt.mp (not_lt_of_roundsToNearestEven hm hn))

/-- Settles O42. -/
theorem roundingOnTheGridIsUnique : Obligations.RoundingOnTheGridIsUnique :=
  ⟨fun a _ _ => gridMagnitude_gridIndex a, fun _ _ _ _ => gridMagnitude_strictMono.lt_iff_lt,
    fun _ _ _ => roundsToNearestEven_unique⟩

/-! ### The index of what NORMROUND composes -/

@[simp] theorem signBit_infinityOf (sign : Bool) : signBit (infinityOf sign) = sign := by
  cases sign <;> decide

@[simp] theorem signBit_signedZero (sign : Bool) : signBit (signedZero sign) = sign :=
  signBit_composed sign (-1023) 0

@[simp] theorem gridIndex_infinityOf (sign : Bool) : gridIndex (infinityOf sign) = infinityIndex := by
  cases sign <;> decide

@[simp] theorem gridIndex_signedZero (sign : Bool) : gridIndex (signedZero sign) = 0 := by
  cases sign <;> decide

/-- Under `propagate` a carry in the normal range moves on to the next binade's first index. -/
theorem gridIndex_roundAndCompose_normal (sign : Bool) {pn : Nat} {g : Rounding} (h1 : -1023 < g.we)
    (h2 : g.we ≤ 1023) (hk1 : 2 ^ 52 ≤ roundedKept pn g.shift) (hk2 : roundedKept pn g.shift ≤ 2 ^ 53) :
    gridIndex (roundAndCompose .propagate sign pn g) = (g.we + 1022).toNat * 2 ^ 52 + roundedKept pn g.shift := by
  by_cases hc : carriesOut g.we (roundedKept pn g.shift) = true
  · have hkept := (carriesOut_iff _ _).mp hc
    rw [roundAndCompose_propagate_of_carry hc, gridIndex, composed_mod]
    omega
  · have hkept := mt (carriesOut_iff _ _).mpr hc
    rw [roundAndCompose_propagate_of_no_carry hc, gridIndex, composed_mod]
    omega

/-- Under `propagate` the kept bits of the subnormal range are the index, the carry into the smallest normal
included. -/
theorem gridIndex_roundAndCompose_subnormal (sign : Bool) {pn : Nat} {g : Rounding} (he : g.we = -1023)
    (hk : roundedKept pn g.shift ≤ 2 ^ 52) :
    gridIndex (roundAndCompose .propagate sign pn g) = roundedKept pn g.shift := by
  by_cases hc : carriesOut g.we (roundedKept pn g.shift) = true
  · have hkept := (carriesOut_iff _ _).mp hc
    rw [roundAndCompose_propagate_of_carry hc, gridIndex, composed_mod]
    omega
  · have hkept := mt (carriesOut_iff _ _).mpr hc
    rw [roundAndCompose_propagate_of_no_carry hc, gridIndex, composed_mod]
    omega

/-! ### NORMROUND rounds to nearest, ties to even -/

/-- Below half the smallest subnormal everything rounds to zero. -/
theorem roundsToNearestEven_zero_of_lt {x : ℚ} (h0 : 0 ≤ x) (h : x < (2 : ℚ) ^ (-1075 : Int)) :
    RoundsToNearestEven x 0 := by
  have hzero : gridMagnitude 0 = 0 := by rw [gridMagnitude_subnormal (by decide), Nat.cast_zero, zero_mul]
  have hone : gridMagnitude (0 + 1) = 2 * (2 : ℚ) ^ (-1075 : Int) := by
    rw [gridMagnitude_subnormal (by decide), ← zpow_one_add₀ (by norm_num)]
    norm_num
  exact roundsToNearestEven_of_between (by decide) (by linarith) (by linarith) (.inl ⟨rfl, .inl (by linarith)⟩)

/-- The number denoted, in units of the kept bits' last place. -/
theorem inputMagnitude_eq_units {we : Int} {p : Nat} (h0 : 0 < p) (h : p < 2 ^ 106) {shift : Nat} {e : Int}
    (he : (normalised we p).we - 104 - (normalised we p).pre = e - shift) :
    inputMagnitude we p = ((normalised we p).pn : ℚ) / 2 ^ shift * (2 : ℚ) ^ e := by
  rw [inputMagnitude_eq_normalised h0 h, he, zpow_sub₀ (by norm_num), zpow_natCast]
  ring

/-- Rounding in the normal range: the kept bits count units of the binade. -/
theorem roundsToNearestEven_normal (sign : Bool) {we : Int} {p : Nat} {g : Rounding} (h0 : 0 < p) (h : p < 2 ^ 106)
    (hlo : -1023 < (normalised we p).we) (hhi : (normalised we p).we < 1024)
    (hg : roundingOf (normalised we p) = some g) :
    RoundsToNearestEven (inputMagnitude we p)
      (gridIndex (roundAndCompose .propagate sign (normalised we p).pn g)) := by
  obtain ⟨hs, -, -, hnorm⟩ := roundingOf_bounds h0 h hg
  obtain ⟨he, hq1, hq2, hshift⟩ := hnorm hlo
  have hup := roundedKept_le (normalised we p).pn g.shift
  have hdown := le_roundedKept (normalised we p).pn g.shift
  have hindex := gridIndex_roundAndCompose_normal sign (pn := (normalised we p).pn) (g := g) (by omega) (by omega)
    (by omega) (by omega)
  have hround := roundsToNearestEven_kept (u := (2 : ℚ) ^ (g.we - 52)) (x := inputMagnitude we p)
    (pn := (normalised we p).pn) (shift := g.shift)
    (lo := (g.we + 1022).toNat * 2 ^ 52 + (normalised we p).pn / 2 ^ g.shift) (by omega) (by positivity)
    (by rw [infinityIndex]; omega) (by omega) (gridMagnitude_normal (by omega) hq1 hq2.le)
    (by rw [Nat.add_assoc, gridMagnitude_normal (by omega) (by omega) hq2, Nat.cast_succ])
    (inputMagnitude_eq_units h0 h (by omega))
  rw [hindex]
  convert hround using 1
  omega

/-- Rounding in the subnormal range: the kept bits count units of 2^−1074. -/
theorem roundsToNearestEven_subnormal (sign : Bool) {we : Int} {p : Nat} {g : Rounding} (h0 : 0 < p) (h : p < 2 ^ 106)
    (hwe : (normalised we p).we ≤ -1023) (hg : roundingOf (normalised we p) = some g) :
    RoundsToNearestEven (inputMagnitude we p)
      (gridIndex (roundAndCompose .propagate sign (normalised we p).pn g)) := by
  obtain ⟨hs, -, hsub, -⟩ := roundingOf_bounds h0 h hg
  obtain ⟨he, hq, hshift⟩ := hsub hwe
  have hup := roundedKept_le (normalised we p).pn g.shift
  have hdown := le_roundedKept (normalised we p).pn g.shift
  have hround := roundsToNearestEven_kept (u := (2 : ℚ) ^ (-1074 : Int)) (x := inputMagnitude we p)
    (pn := (normalised we p).pn) (shift := g.shift) (lo := (normalised we p).pn / 2 ^ g.shift) (by omega)
    (by positivity) (by rw [infinityIndex]; omega) rfl (gridMagnitude_subnormal hq.le)
    (by rw [gridMagnitude_subnormal hq, Nat.cast_succ]) (inputMagnitude_eq_units h0 h (by omega))
  rw [gridIndex_roundAndCompose_subnormal sign he (by omega)]
  convert hround using 1
  omega

theorem signBit_normRounded (rc : Config.RoundCarry) (sign : Bool) (we : Int) (p : Nat) :
    signBit (normRounded rc sign we p) = sign := by
  rcases p.eq_zero_or_pos with rfl | h0
  · rw [normRounded_zero, signBit_signedZero]
  · rcases normRounded_cases rc sign (we := we) h0 with ⟨-, h⟩ | ⟨-, h⟩ | ⟨g, -, -, h⟩
    · rw [h, signBit_infinityOf]
    · rw [h, signBit_signedZero]
    · rw [h, roundAndCompose, signBit_composed]

theorem inputMagnitude_nonneg (we : Int) (p : Nat) : 0 ≤ inputMagnitude we p := by
  unfold inputMagnitude
  positivity

/-- R89, by the branch that NORMROUND takes. -/
theorem normRounded_roundsToNearestEven (sign : Bool) {we : Int} {p : Nat} (h0 : 0 < p) (h : p < 2 ^ 106) :
    RoundsToNearestEven (inputMagnitude we p) (gridIndex (normRounded .propagate sign we p)) := by
  obtain ⟨hlo, hhi⟩ := inputMagnitude_bounds (we := we) h0 h
  rcases normRounded_cases .propagate sign (we := we) h0 with ⟨hwe, hr⟩ | ⟨hwe, hr⟩ | ⟨g, hwe, hg, hr⟩
  · rw [hr, gridIndex_infinityOf]
    refine roundsToNearestEven_of_ge (le_trans ?_ hlo)
    rw [gridMagnitude_infinityIndex]
    exact zpow_le_zpow_right₀ (by norm_num) hwe
  · rw [hr, gridIndex_signedZero]
    refine roundsToNearestEven_zero_of_lt (inputMagnitude_nonneg we p) (hhi.trans_le ?_)
    exact zpow_le_zpow_right₀ (by norm_num) (by omega)
  · rw [hr]
    rcases le_or_gt (normalised we p).we (-1023) with hsub | hnorm
    · exact roundsToNearestEven_subnormal sign h0 h hsub hg
    · exact roundsToNearestEven_normal sign h0 h hnorm hwe hg

/-- Settles O41. -/
theorem normroundIsRoundToNearestEven : Obligations.NormroundIsRoundToNearestEven := by
  refine ⟨fun sign we p h0 h => ⟨signBit_normRounded .., normRounded_roundsToNearestEven sign h0 h⟩,
    fun s hrc hp => completes_of_driveR _ (execNormround_eq s) ?_⟩
  rw [State.driveR_out_r, hrc]
  exact ⟨signBit_normRounded .., normRounded_roundsToNearestEven _ (BitVec.toNat_pos_of_ne_zero hp) s.inp.pIn.isLt⟩

end Sys2Proof.Machine
end

section
/-! PROOFS. MUL on NaN operands (41_special_values.md R69, 43_fp_multiplier.md R102): which operand is selected, and when
the order of the operands shows. -/

namespace Sys2Proof.Machine

/-! ### The two kinds of NaN -/

theorem isNaN_of_isQuietNaN {a : FloatValue} (h : isQuietNaN a = true) : isNaN a = true :=
  (Bool.and_eq_true_iff.mp h).1

theorem isNaN_of_isSignalingNaN {a : FloatValue} (h : isSignalingNaN a = true) : isNaN a = true :=
  (Bool.and_eq_true_iff.mp h).1

theorem isSignalingNaN_false_of_isNaN_false {a : FloatValue} (h : isNaN a = false) : isSignalingNaN a = false := by
  rw [isSignalingNaN, h, Bool.false_and]

/-- A NaN is signaling exactly when it is not quiet. -/
theorem isSignalingNaN_eq_not_isQuietNaN {a : FloatValue} (h : isNaN a = true) :
    isSignalingNaN a = !isQuietNaN a := by
  rw [isSignalingNaN, isQuietNaN, h, Bool.true_and, Bool.true_and]

theorem isSignalingNaN_false_of_isQuietNaN {a : FloatValue} (h : isQuietNaN a = true) : isSignalingNaN a = false := by
  rw [isSignalingNaN_eq_not_isQuietNaN (isNaN_of_isQuietNaN h), h, Bool.not_true]

theorem quieted_of_isQuietNaN {a : FloatValue} (h : isQuietNaN a = true) : quieted a = a := by
  have hbit := (isQuietNaN_iff_of_isNaN (isNaN_of_isQuietNaN h)).mp h
  apply BitVec.eq_of_getLsbD_eq
  intro k _
  by_cases hk : k = 51
  · rw [getLsbD_quieted, hk, hbit, Bool.true_or]
  · rw [getLsbD_quieted_of_ne a hk]

/-- R68's quiet bit written as a mask. -/
theorem quieted_eq_or (a : FloatValue) : quieted a = a ||| 0x0008000000000000#64 := by
  have hmask : BitVec.twoPow 64 51 = 0x0008000000000000#64 := by decide
  rw [quieted, hmask]

/-! ### The operand selected -/

theorem selectedNaN_eq_left {a b : FloatValue} (ha : isNaN a = true)
    (h : isSignalingNaN a = true ∨ isSignalingNaN b = false) : selectedNaN a b = a := by
  rw [selectedNaN, if_neg, if_pos ha]
  rintro ⟨hb, ha'⟩
  rcases h with h | h
  · exact absurd (h.symm.trans ha') (by decide)
  · exact absurd (hb.symm.trans h) (by decide)

theorem selectedNaN_eq_right_of_signaling {a b : FloatValue} (ha : isSignalingNaN a = false)
    (hb : isSignalingNaN b = true) : selectedNaN a b = b := if_pos ⟨hb, ha⟩

theorem selectedNaN_eq_right_of_left_not_isNaN {a : FloatValue} (b : FloatValue) (ha : isNaN a = false) :
    selectedNaN a b = b := by
  rw [selectedNaN, ha]
  split <;> rfl

/-- Settles O45: one rule of selection per row of the table. -/
theorem mulNaNDecisionTable : Obligations.MulNaNDecisionTable := by
  refine fun s => ⟨fun ha => ?_, fun ha hb => ?_, fun ha hb => ?_, fun ha hb => ?_⟩ <;>
    refine completes_of_driveR _ (execMul_eq s) ?_
  · have hNaN := isNaN_of_isSignalingNaN ha
    rw [State.driveR_out_r, product_of_isNaN _ (.inl hNaN), selectedNaN_eq_left hNaN (.inl ha), quieted_eq_or]
  · rw [State.driveR_out_r, product_of_isNaN _ (.inl (isNaN_of_isQuietNaN ha)),
      selectedNaN_eq_right_of_signaling (isSignalingNaN_false_of_isQuietNaN ha) hb, quieted_eq_or]
  · have hNaN := isNaN_of_isQuietNaN ha
    rw [State.driveR_out_r, product_of_isNaN _ (.inl hNaN), selectedNaN_eq_left hNaN (.inr hb),
      quieted_of_isQuietNaN ha]
  · rw [State.driveR_out_r, product_of_isNaN _ (.inr hb), selectedNaN_eq_right_of_left_not_isNaN _ ha, quieted_eq_or]

/-! ### The order of the operands -/

/-- The sign, the exponent and the product are symmetric, and so are the tests before them. -/
theorem mulNonNaN_comm (p : Config.Params) (a b : FloatValue) : mulNonNaN p a b = mulNonNaN p b a := by
  have hsign : resultSign a b = resultSign b a := Bool.xor_comm ..
  have hexp : workingExponent a b = workingExponent b a := by unfold workingExponent; ring
  have hprod : exactProduct a b = exactProduct b a := Nat.mul_comm ..
  simp only [mulNonNaN, hsign, hexp, hprod, Bool.or_comm]

/-- With a NaN operand MUL commutes exactly when both orders select operands of one quieted pattern. -/
theorem product_comm_iff_of_isNaN (p : Config.Params) {a b : FloatValue} (h : isNaN a = true ∨ isNaN b = true) :
    product p a b = product p b a ↔ quieted (selectedNaN a b) = quieted (selectedNaN b a) := by
  rw [product_of_isNaN p h, product_of_isNaN p h.symm]

/-- Settles O46: both orders select the only NaN, or the only signaling one; of two of a kind each selects its first. -/
theorem mulOrderMattersOnlyForNaNs : Obligations.MulOrderMattersOnlyForNaNs := by
  refine fun p a b => ⟨fun ha hb => ?_, fun ha hb => ?_, fun ha hb => ?_, fun ha hb hkind => ?_⟩
  · rw [product_of_not_isNaN p ha hb, product_of_not_isNaN p hb ha, mulNonNaN_comm]
  · rw [product_comm_iff_of_isNaN p (.inl ha), selectedNaN_eq_left ha (.inr (isSignalingNaN_false_of_isNaN_false hb)),
      selectedNaN_eq_right_of_left_not_isNaN a hb]
  · have hNaN := isNaN_of_isSignalingNaN ha
    rw [product_comm_iff_of_isNaN p (.inl hNaN), selectedNaN_eq_left hNaN (.inl ha),
      selectedNaN_eq_right_of_signaling (isSignalingNaN_false_of_isQuietNaN hb) ha]
  · have hsignaling : isSignalingNaN a = isSignalingNaN b := by
      rw [isSignalingNaN_eq_not_isQuietNaN ha, isSignalingNaN_eq_not_isQuietNaN hb, hkind]
    have hfirst : isSignalingNaN a = true ∨ isSignalingNaN b = false := by
      rw [hsignaling]; exact Bool.eq_false_or_eq_true _
    have hfirst' : isSignalingNaN b = true ∨ isSignalingNaN a = false := by
      rw [hsignaling]; exact Bool.eq_false_or_eq_true _
    rw [product_comm_iff_of_isNaN p (.inl ha), selectedNaN_eq_left ha hfirst, selectedNaN_eq_left hb hfirst']

end Sys2Proof.Machine
end

section
/-! PROOFS. MUL on numbers (43_fp_multiplier.md R103 to R115): the exact product that goes to NORMROUND, the sign and the
class of the result, and the correctly rounded product. -/

namespace Sys2Proof.Machine

/-! ### The operands' mantissas and exponents -/

/-- The helper of R106 in the terms of R36: setting the implicit bit above the 52-bit field adds it, and the adjustment
moves the stored exponent to the effective one. -/
theorem fullMantissa_decomposed (a : FloatValue) : fullMantissa (decomposed a).exponent (decomposed a).mantissa =
    (significand a, effectiveExponent a - (decomposed a).exponent) := by
  have hexp : (decomposed a).exponent = ((expField a).toNat : Int) - 1023 := rfl
  have hor := Nat.two_pow_add_eq_or_of_lt (mantField a).isLt 1
  rw [Nat.mul_one, Nat.or_comm] at hor
  by_cases he : (expField a).toNat = 0
  · rw [fullMantissa, if_pos (by omega), significand, if_pos he, effectiveExponent, if_pos he]
    exact Prod.ext rfl (by simp only; omega)
  · rw [fullMantissa, if_neg (by omega), significand, if_neg he, effectiveExponent, if_neg he]
    exact Prod.ext hor.symm (by simp only; omega)

theorem operandMantissa_eq_significand (a : FloatValue) : operandMantissa a = significand a := by
  rw [operandMantissa, fullMantissa_decomposed]

theorem exponent_add_operandAdjustment (a : FloatValue) :
    (decomposed a).exponent + operandAdjustment a = effectiveExponent a := by
  rw [operandAdjustment, fullMantissa_decomposed, add_sub_cancel]

theorem workingExponent_eq (a b : FloatValue) :
    workingExponent a b = effectiveExponent a + effectiveExponent b := by
  rw [← exponent_add_operandAdjustment a, ← exponent_add_operandAdjustment b, workingExponent]
  ring

theorem exactProduct_eq (a b : FloatValue) : exactProduct a b = significand a * significand b := by
  rw [exactProduct, operandMantissa_eq_significand, operandMantissa_eq_significand]

theorem significand_lt (a : FloatValue) : significand a < 2 ^ 53 := by
  have hm := (mantField a).isLt
  unfold significand
  split <;> omega

theorem significand_pos {a : FloatValue} (h : isZero a = false) : 0 < significand a := by
  have hfields := mt (isZero_iff a).mpr (by rw [h]; decide)
  unfold significand
  split <;> omega

theorem significand_of_isZero {a : FloatValue} (h : isZero a = true) : significand a = 0 := by
  obtain ⟨he, hm⟩ := (isZero_iff a).mp h
  rw [significand, if_pos he, hm]

/-- The largest product of two full mantissas (R108). -/
theorem significand_mul_le (a b : FloatValue) : significand a * significand b ≤ (2 ^ 53 - 1) ^ 2 := by
  rw [pow_two]
  exact Nat.mul_le_mul (Nat.le_pred_of_lt (significand_lt a)) (Nat.le_pred_of_lt (significand_lt b))

theorem significand_mul_lt (a b : FloatValue) : significand a * significand b < 2 ^ 106 :=
  (significand_mul_le a b).trans_lt (by decide)

/-- A finite exponent field is at most 2046. -/
theorem effectiveExponent_bounds {a : FloatValue} (hNaN : isNaN a = false) (hinf : isInfinity a = false) :
    -1022 ≤ effectiveExponent a ∧ effectiveExponent a ≤ 1023 := by
  have he := (expField a).isLt
  have hNaN' := mt (isNaN_iff a).mpr (by rw [hNaN]; decide)
  have hinf' := mt (isInfinity_iff a).mpr (by rw [hinf]; decide)
  unfold effectiveExponent
  split <;> omega

theorem isFiniteNonzero_iff (a : FloatValue) :
    isFiniteNonzero a = true ↔ isNaN a = false ∧ isInfinity a = false ∧ isZero a = false := by
  simp [isFiniteNonzero, and_assoc]

/-! ### MUL by the branch it takes -/

theorem mulNonNaN_zero (p : Config.Params) {a b : FloatValue} (ha : isInfinity a = false)
    (hb : isInfinity b = false) (hzero : isZero a = true ∨ isZero b = true) :
    mulNonNaN p a b = signedZero (resultSign a b) := by
  rw [mulNonNaN, if_neg (by simp [ha, hb]), if_pos (Bool.or_eq_true_iff.mpr hzero)]

theorem mulNonNaN_finite (p : Config.Params) {a b : FloatValue} (ha : isInfinity a = false)
    (hb : isInfinity b = false) (hza : isZero a = false) (hzb : isZero b = false) :
    mulNonNaN p a b = normRounded p.roundCarry (resultSign a b) (effectiveExponent a + effectiveExponent b)
      (significand a * significand b) := by
  rw [mulNonNaN, if_neg (by simp [ha, hb]), if_neg (by simp [hza, hzb]), workingExponent_eq, exactProduct_eq]

theorem product_finite (p : Config.Params) {a b : FloatValue} (ha : isFiniteNonzero a = true)
    (hb : isFiniteNonzero b = true) :
    product p a b = normRounded p.roundCarry (resultSign a b) (effectiveExponent a + effectiveExponent b)
      (significand a * significand b) := by
  obtain ⟨hNa, hIa, hZa⟩ := (isFiniteNonzero_iff a).mp ha
  obtain ⟨hNb, hIb, hZb⟩ := (isFiniteNonzero_iff b).mp hb
  rw [product_of_not_isNaN p hNa hNb, mulNonNaN_finite p hIa hIb hZa hZb]

/-- Settles O48: past the infinity step the zero step is next. -/
theorem mulOfZeros : Obligations.MulOfZeros := by
  intro s ha hb hIa hIb hzero
  refine completes_of_driveR _ (execMul_eq s) ?_
  rw [State.driveR_out_r, product_of_not_isNaN _ ha hb, mulNonNaN_zero _ hIa hIb hzero, signedZero_toNat,
    resultSign_weight]

/-- Settles O53. -/
theorem mulTemporariesStayInRange : Obligations.MulTemporariesStayInRange := by
  intro a b ha hb
  obtain ⟨hNa, hIa, hZa⟩ := (isFiniteNonzero_iff a).mp ha
  obtain ⟨hNb, hIb, hZb⟩ := (isFiniteNonzero_iff b).mp hb
  obtain ⟨hea1, hea2⟩ := effectiveExponent_bounds hNa hIa
  obtain ⟨heb1, heb2⟩ := effectiveExponent_bounds hNb hIb
  have hpos := Nat.mul_pos (significand_pos hZa) (significand_pos hZb)
  have hlt := significand_mul_lt a b
  have hlog := log2_le_105 hpos hlt
  rw [workingExponent_eq, exactProduct_eq, normalised_we _ hpos hlt]
  exact ⟨by omega, by omega, rfl, hpos, significand_mul_le a b, rfl, by omega, by omega⟩

/-- Settles O52: the sum of the exponents fits `e_in` and the product `p_in`, so that NORMROUND reads back what MUL
hands on inside. -/
theorem mulIsNormroundOfExactProduct : Obligations.MulIsNormroundOfExactProduct := by
  intro s ha hb
  obtain ⟨hNa, hIa, -⟩ := (isFiniteNonzero_iff _).mp ha
  obtain ⟨hNb, hIb, -⟩ := (isFiniteNonzero_iff _).mp hb
  obtain ⟨hea1, hea2⟩ := effectiveExponent_bounds hNa hIa
  obtain ⟨heb1, heb2⟩ := effectiveExponent_bounds hNb hIb
  have hfits : exponentFits (effectiveExponent s.inp.a + effectiveExponent s.inp.b) = true := by
    simp only [exponentFits, Bool.and_eq_true, decide_eq_true_eq]
    omega
  refine completes_of_driveR _ (execMul_eq s) (completes_of_driveR _ (execNormround_eq _) ?_)
  simp only [State.driveR_out_r, State.withInputs_inp, State.withInputs_params, product_finite s.params ha hb,
    toInt_ofInt_of_exponentFits hfits, BitVec.toNat_ofNat, Nat.mod_eq_of_lt (significand_mul_lt _ _)]
  rfl

/-! ### The class and the sign of the result -/

/-- Under `drop` the composed exponent stays below 1024, under `propagate` the index is a rounding on the grid. -/
theorem isNaN_normRounded (rc : Config.RoundCarry) (sign : Bool) (we : Int) {p : Nat} (h : p < 2 ^ 106) :
    isNaN (normRounded rc sign we p) = false := by
  rcases p.eq_zero_or_pos with rfl | h0
  · rw [normRounded_zero, isNaN_false_iff_gridIndex, gridIndex_signedZero]
    exact Nat.zero_le _
  cases rc with
  | propagate =>
    rw [isNaN_false_iff_gridIndex]
    exact (normRounded_roundsToNearestEven sign h0 h).1
  | drop =>
    rcases normRounded_cases .drop sign (we := we) h0 with ⟨-, hr⟩ | ⟨-, hr⟩ | ⟨g, hlt, hg, hr⟩
    · rw [hr, isNaN_false_iff_gridIndex, gridIndex_infinityOf]
    · rw [hr, isNaN_false_iff_gridIndex, gridIndex_signedZero]
      exact Nat.zero_le _
    · have hranges := rounding_ranges h0 h hlt hg
      rw [hr, roundAndCompose_drop, ← Bool.not_eq_true, isNaN_iff, expField_composed]
      omega

theorem isInfinity_false_of_isZero {a : FloatValue} (h : isZero a = true) : isInfinity a = false := by
  have he := ((isZero_iff a).mp h).1
  rw [← Bool.not_eq_true, isInfinity_iff]
  omega

/-- No operand is both a zero and an infinity, so the pair R104 refuses to multiply is one of each. -/
theorem infinity_and_zero_iff (a b : FloatValue) :
    (isInfinity a = true ∨ isInfinity b = true) ∧ (isZero a = true ∨ isZero b = true) ↔
      (isZero a = true ∧ isInfinity b = true) ∨ (isInfinity a = true ∧ isZero b = true) := by
  have ha := isInfinity_false_of_isZero (a := a)
  have hb := isInfinity_false_of_isZero (a := b)
  cases hza : isZero a <;> cases hzb : isZero b <;> simp_all

/-- Of two operands that are not zero and infinity, MUL without NaNs makes a number or an infinity of the exclusive-or
sign, by each of its three remaining branches. -/
theorem mulNonNaN_sign_and_not_isNaN (p : Config.Params) {a b : FloatValue}
    (h : ¬ ((isInfinity a = true ∨ isInfinity b = true) ∧ (isZero a = true ∨ isZero b = true))) :
    isNaN (mulNonNaN p a b) = false ∧ signBit (mulNonNaN p a b) = resultSign a b := by
  by_cases hinf : isInfinity a = true ∨ isInfinity b = true
  · obtain ⟨hza, hzb⟩ : isZero a = false ∧ isZero b = false := by simpa [hinf] using h
    rw [mulNonNaN_infinity_nonzero p hinf hza hzb, isNaN_false_iff_gridIndex, gridIndex_infinityOf]
    exact ⟨le_rfl, signBit_infinityOf _⟩
  obtain ⟨hIa, hIb⟩ : isInfinity a = false ∧ isInfinity b = false := by simpa using hinf
  by_cases hzero : isZero a = true ∨ isZero b = true
  · rw [mulNonNaN_zero p hIa hIb hzero, isNaN_false_iff_gridIndex, gridIndex_signedZero]
    exact ⟨Nat.zero_le _, signBit_signedZero _⟩
  obtain ⟨hza, hzb⟩ : isZero a = false ∧ isZero b = false := by simpa using hzero
  rw [mulNonNaN_finite p hIa hIb hza hzb]
  exact ⟨isNaN_normRounded _ _ _ (significand_mul_lt a b), signBit_normRounded ..⟩

/-- Settles O49. -/
theorem mulSignIsExclusiveOr : Obligations.MulSignIsExclusiveOr := by
  intro s ha hb hiz hzi
  refine completes_of_driveR _ (execMul_eq s) ?_
  rw [State.driveR_out_r, product_of_not_isNaN _ ha hb]
  refine mulNonNaN_sign_and_not_isNaN s.params fun h => ?_
  rcases (infinity_and_zero_iff _ _).mp h with h | h
  · exact hzi h
  · exact hiz h

/-- Settles O50: a NaN operand and zero times infinity each give a quiet NaN, every other pair none. -/
theorem mulNaNExactlyWhen : Obligations.MulNaNExactlyWhen := by
  intro s
  refine completes_of_driveR _ (execMul_eq s) ?_
  rw [State.driveR_out_r, ← infinity_and_zero_iff, ← or_assoc]
  by_cases hNaN : isNaN s.inp.a = true ∨ isNaN s.inp.b = true
  · have hquiet := isQuietNaN_quieted (isNaN_selectedNaN hNaN)
    rw [product_of_isNaN _ hNaN]
    exact ⟨iff_of_true (isNaN_of_isQuietNaN hquiet) (.inl hNaN), fun _ => hquiet⟩
  obtain ⟨ha, hb⟩ : isNaN s.inp.a = false ∧ isNaN s.inp.b = false := by simpa using hNaN
  rw [product_of_not_isNaN _ ha hb]
  by_cases hpair : (isInfinity s.inp.a = true ∨ isInfinity s.inp.b = true) ∧
      (isZero s.inp.a = true ∨ isZero s.inp.b = true)
  · have hquiet := isQuietNaN_canonicalNaN s.params
    rw [mulNonNaN_infinity_zero _ hpair.1 hpair.2]
    exact ⟨iff_of_true (isNaN_of_isQuietNaN hquiet) (.inr hpair), fun _ => hquiet⟩
  · obtain ⟨hfalse, -⟩ := mulNonNaN_sign_and_not_isNaN s.params hpair
    have hnot : ¬ isNaN (mulNonNaN s.params s.inp.a s.inp.b) = true := by rw [hfalse]; decide
    exact ⟨iff_of_false hnot (not_or_intro hNaN hpair), fun h => absurd h hnot⟩

/-! ### The correctly rounded product -/

theorem inputMagnitude_significands (a b : FloatValue) :
    inputMagnitude (effectiveExponent a + effectiveExponent b) (significand a * significand b) =
      magnitude a * magnitude b := by
  have he : effectiveExponent a + effectiveExponent b - 104 =
      (effectiveExponent a - 52) + (effectiveExponent b - 52) := by ring
  rw [inputMagnitude, magnitude, magnitude, he, zpow_add₀ (by norm_num), Nat.cast_mul]
  ring

theorem magnitude_of_isZero {a : FloatValue} (h : isZero a = true) : magnitude a = 0 := by
  rw [magnitude, significand_of_isZero h, Nat.cast_zero, zero_mul]

/-- Settles O54: a zero product is exact, any other goes through NORMROUND. -/
theorem mulIsCorrectlyRoundedProduct : Obligations.MulIsCorrectlyRoundedProduct := by
  intro s hrc ha hb hIa hIb
  refine completes_of_driveR _ (execMul_eq s) ?_
  rw [State.driveR_out_r, product_of_not_isNaN _ ha hb]
  by_cases hzero : isZero s.inp.a = true ∨ isZero s.inp.b = true
  · have hmag : magnitude s.inp.a * magnitude s.inp.b = 0 :=
      mul_eq_zero.mpr (hzero.imp magnitude_of_isZero magnitude_of_isZero)
    rw [mulNonNaN_zero _ hIa hIb hzero, hmag, gridIndex_signedZero]
    exact ⟨signBit_signedZero _, roundsToNearestEven_zero_of_lt le_rfl (by positivity)⟩
  · obtain ⟨hZa, hZb⟩ : isZero s.inp.a = false ∧ isZero s.inp.b = false := by simpa using hzero
    rw [mulNonNaN_finite _ hIa hIb hZa hZb, hrc, ← inputMagnitude_significands]
    exact ⟨signBit_normRounded ..,
      normRounded_roundsToNearestEven _ (Nat.mul_pos (significand_pos hZa) (significand_pos hZb))
        (significand_mul_lt _ _)⟩

/-! ### Multiplying by 1.0 -/

theorem roundsToNearestEven_self {n : Nat} (h : n ≤ infinityIndex) : RoundsToNearestEven (gridMagnitude n) n := by
  refine ⟨h, fun m _ hne => .inl ?_⟩
  rw [sub_self, abs_zero, abs_pos, sub_ne_zero]
  exact gridMagnitude_strictMono.injective.ne hne

/-- A power of two is the magnitude of a mantissa of zero. -/
theorem magnitude_composed_zero (sign : Bool) {e : Int} (h1 : -1022 ≤ e) (h2 : e ≤ 1024) :
    magnitude (composed sign e 0) = (2 : ℚ) ^ e := by
  have hindex : gridIndex (composed sign e 0) = (e + 1022).toNat * 2 ^ 52 + 2 ^ 52 := by
    rw [gridIndex, composed_mod]
    omega
  have he : e = ((52 : Nat) : Int) + (e - 52) := by push_cast; ring
  rw [← gridMagnitude_gridIndex, hindex, gridMagnitude_normal h1 le_rfl (by decide), Nat.cast_pow, Nat.cast_ofNat]
  conv_rhs => rw [he, zpow_add₀ (by norm_num), zpow_natCast]

/-- Under `propagate` a number that is on the grid rounds to itself. -/
theorem normRounded_propagate_of_exact {we : Int} {p : Nat} {a : FloatValue} (h0 : 0 < p) (h : p < 2 ^ 106)
    (ha : isNaN a = false) (hexact : inputMagnitude we p = magnitude a) :
    normRounded .propagate (signBit a) we p = a := by
  have hself := roundsToNearestEven_self ((isNaN_false_iff_gridIndex a).mp ha)
  rw [gridMagnitude_gridIndex, ← hexact] at hself
  exact ext_sign_gridIndex (signBit_normRounded ..)
    (roundsToNearestEven_unique (normRounded_roundsToNearestEven _ h0 h) hself)

/-- Before rounding the number is below the power of two that a carry composes. -/
theorem inputMagnitude_lt_of_rounding {we : Int} {p : Nat} {g : Rounding} (h0 : 0 < p) (h : p < 2 ^ 106)
    (hg : roundingOf (normalised we p) = some g) : inputMagnitude we p < (2 : ℚ) ^ (g.we + 1) := by
  obtain ⟨-, -, hsub, hnorm⟩ := roundingOf_bounds h0 h hg
  have hwe : (normalised we p).we ≤ g.we := by
    rcases le_or_gt (normalised we p).we (-1023) with hle | hgt
    · exact hle.trans_eq (hsub hle).1.symm
    · exact (hnorm hgt).1.ge
  exact (inputMagnitude_bounds h0 h).2.trans_le (zpow_le_zpow_right₀ (by norm_num) (by omega))

/-- A number on the grid makes no carry, so that `ROUND_CARRY` does not show. -/
theorem normRounded_of_exact (rc : Config.RoundCarry) {we : Int} {p : Nat} {a : FloatValue} (h0 : 0 < p)
    (h : p < 2 ^ 106) (ha : isNaN a = false) (hexact : inputMagnitude we p = magnitude a) :
    normRounded rc (signBit a) we p = a := by
  have hprop := normRounded_propagate_of_exact h0 h ha hexact
  cases rc with
  | propagate => exact hprop
  | drop =>
    rcases normRounded_cases .drop (signBit a) (we := we) h0 with ⟨hover, hr⟩ | ⟨hunder, hr⟩ | ⟨g, hlt, hg, hr⟩
    · rw [hr, ← normRounded_of_overflow .propagate _ h0 hover, hprop]
    · rw [hr, ← normRounded_of_underflow .propagate _ h0 hunder, hprop]
    · have hranges := rounding_ranges h0 h hlt hg
      rw [normRounded_of_rounding _ _ h0 hlt hg] at hprop
      rw [hr, ← (roundAndCompose_settings_eq_iff (signBit a) (by omega) (by omega)).mpr, hprop]
      intro hcarry
      have hbelow := inputMagnitude_lt_of_rounding h0 h hg
      rw [(roundAndCompose_of_carry (signBit a) hcarry).1] at hprop
      rw [hexact, ← hprop, magnitude_composed_zero _ (by omega) (by omega)] at hbelow
      exact lt_irrefl _ hbelow

/-- The pattern of 1.0 (R115). -/
theorem magnitude_one : magnitude 0x3FF0000000000000#64 = 1 := by
  have h : (0x3FF0000000000000#64 : FloatValue) = composed false 0 0 := by decide
  rw [h, magnitude_composed_zero false (by decide) (by decide), zpow_zero]

theorem resultSign_one (a : FloatValue) : resultSign a 0x3FF0000000000000#64 = signBit a := by
  have h : signBit 0x3FF0000000000000#64 = false := by decide
  rw [resultSign, h, Bool.xor_false]

theorem eq_infinityOf_signBit {a : FloatValue} (h : isInfinity a = true) : infinityOf (signBit a) = a :=
  ext_sign_gridIndex (signBit_infinityOf _)
    ((gridIndex_infinityOf _).trans ((isInfinity_iff_gridIndex a).mp h).symm)

theorem eq_signedZero_signBit {a : FloatValue} (h : isZero a = true) : signedZero (signBit a) = a := by
  obtain ⟨he, hm⟩ := (isZero_iff a).mp h
  refine ext_sign_gridIndex (signBit_signedZero _) ?_
  rw [gridIndex_signedZero, gridIndex_eq, he, hm, Nat.zero_mul]

/-- Each branch of MUL returns a non-NaN operand that is multiplied by 1.0. -/
theorem mulNonNaN_one (p : Config.Params) {a : FloatValue} (ha : isNaN a = false) :
    mulNonNaN p a 0x3FF0000000000000#64 = a := by
  have hI1 : isInfinity 0x3FF0000000000000#64 = false := by decide
  have hZ1 : isZero 0x3FF0000000000000#64 = false := by decide
  cases hza : isZero a with
  | true =>
    rw [mulNonNaN_zero p (isInfinity_false_of_isZero hza) hI1 (.inl hza), resultSign_one, eq_signedZero_signBit hza]
  | false =>
    cases hia : isInfinity a with
    | true => rw [mulNonNaN_infinity_nonzero p (.inl hia) hza hZ1, resultSign_one, eq_infinityOf_signBit hia]
    | false =>
      rw [mulNonNaN_finite p hia hI1 hza hZ1, resultSign_one]
      refine normRounded_of_exact _ (Nat.mul_pos (significand_pos hza) (significand_pos hZ1))
        (significand_mul_lt _ _) ha ?_
      rw [inputMagnitude_significands, magnitude_one, mul_one]

/-- Settles O51. -/
theorem mulByOneIsIdentity : Obligations.MulByOneIsIdentity := by
  intro s hb
  have hN1 : isNaN 0x3FF0000000000000#64 = false := by decide
  refine ⟨fun ha => ?_, fun ha => ?_⟩ <;> refine completes_of_driveR _ (execMul_eq s) ?_
  · rw [State.driveR_out_r, hb, product_of_not_isNaN _ ha hN1, mulNonNaN_one _ ha]
  · rw [State.driveR_out_r, hb, product_of_isNaN _ (.inl ha),
      selectedNaN_eq_left ha (.inr (isSignalingNaN_false_of_isNaN_false hN1)), quieted_eq_or]

end Sys2Proof.Machine
end
